-- ==== Sys2Proof/Word.lean ====
section
/-! DEFINITION. The word types of the block (00_scope.md rules R6, R7, R8): an unsigned 32-bit word, an
unsigned 8-bit byte, and the 64-bit value of the length counter and of the length field.

On words `+` is addition modulo 2^32 (rule R7, rule R120), which is what `BitVec` addition is. -/

namespace Sys2Proof

/-- A byte: an unsigned 8-bit value (rule R8). -/
abbrev Byte := BitVec 8

/-- A word: an unsigned 32-bit value (rule R7). -/
abbrev Word := BitVec 32

/-- An unsigned 64-bit value: LEN (rule R23) and the length field of the padding (rule R184). -/
abbrev Word64 := BitVec 64

end Sys2Proof
end

