-- ==== Sys2Proof/Syntax.lean ====
section
/-! DEFINITION. The commands of the block (30_encoding.md rule R73) and the request word pair that carries one
(rule R70). One constructor of `Instr` per row of spec/opcode_table.json. -/

namespace Sys2Proof

/-- The variant tag {SHA-256, SHA-224} (10_state.md rule R24). -/
inductive Variant where
  | sha256
  | sha224
  deriving DecidableEq, Repr

/-- A request: the command word CMD and the data word DATA (rule R70). -/
structure Request where
  cmd  : Word
  data : Word
  deriving DecidableEq, Repr

/-- The six commands with their operands (rule R80).
`write` keeps the whole count field CMD[23:16] and the whole data word; a count above 4 is ill-formed. -/
inductive Instr where
  /-- `INIT v`, rule R201. -/
  | init (v : Variant)
  /-- `RESET`, rule R202. -/
  | reset
  /-- `WRITE n, DATA`, rule R203. -/
  | write (n : BitVec 8) (data : Word)
  /-- `SUM`, rule R205. -/
  | sum
  /-- `SIZE`, rule R206. -/
  | size
  /-- `BLOCKSIZE`, rule R207. -/
  | blocksize
  deriving DecidableEq, Repr

end Sys2Proof
end

