-- ==== Sys2Proof/Config.lean ====
section
/-! DEFINITION. The implementation parameters of 00_scope.md rule R6.

Rule R6 gives every parameter a value ("No parameter is left open to the model"), so nothing here is opaque:
the model has NO free value. The only behaviour the spec leaves undefined is the length limit of rule R243,
which is a fault (93_implementation_defined.md row U1), and the values after power-on, which State.reset
names (notes/assumptions/1.md). -/

namespace Sys2Proof.Config

/-- The block size in bytes (rule R6 "block size", rule R207). -/
abbrev blockBytes : Nat := 64

/-- Rounds per block, and words of the message schedule (rule R6 "rounds per block", "message schedule"). -/
abbrev rounds : Nat := 64

/-- The most message bytes one WRITE carries (rule R6 "bytes per WRITE command"). -/
abbrev maxWriteBytes : Nat := 4

/-- The greatest defined message length in bytes, 2^61 − 1 (rule R6 "maximum defined message", rule R243). -/
abbrev lengthLimit : Nat := 2 ^ 61 - 1

end Sys2Proof.Config
end

