-- ==== Sys2Proof/WellFormed.lean ====
section
/-! DEFINITION. Well-formedness of a command (30_encoding.md rule R74): the one operand whose field admits more
values than are legal is WRITE's byte count, 0x00 to 0x04 in an 8-bit field. -/

namespace Sys2Proof

/-- The operands are in the ranges rule R74 allows. -/
def Instr.wellFormed : Instr → Bool
  | .init _ => true
  | .reset => true
  | .write n _ => decide (n.toNat ≤ Config.maxWriteBytes)
  | .sum => true
  | .size => true
  | .blocksize => true

end Sys2Proof
end

