-- ==== Sys2Proof/Decode.lean ====
section
/-! DEFINITION. The decoder and the encoder of a request (30_encoding.md rules R71 to R80).

The decoder is total (rule R79): it reads OP first, then checks RSV, then ARG, and never needs DATA to decide
legality. What it rejects it rejects by name. -/

namespace Sys2Proof

/-! ## The fields of the command word (rule R71) -/

/-- OP = CMD[31:24]. -/
def opField (cmd : Word) : BitVec 8 := cmd.extractLsb' 24 8

/-- ARG = CMD[23:16]. -/
def argField (cmd : Word) : BitVec 8 := cmd.extractLsb' 16 8

/-- RSV = CMD[15:0]. -/
def rsvField (cmd : Word) : BitVec 16 := cmd.extractLsb' 0 16

/-! ## Decoding -/

/-- Why a word pair is no command: conditions 1 to 3 of rule R241. The response carries no cause. -/
inductive Malformed where
  /-- OP is not one of 0x01 to 0x06. -/
  | opcode
  /-- RSV is not 0x0000. -/
  | reserved
  /-- ARG is not legal for OP. -/
  | argument
  deriving DecidableEq, Repr

/-- The two verdicts of the decoder (rule R79). -/
inductive Decoded where
  | legal (i : Instr)
  | illegal (why : Malformed)
  deriving DecidableEq, Repr

/-- The opcodes of rule R73. -/
inductive Opcode where
  | init | reset | write | sum | size | blocksize
  deriving DecidableEq, Repr

/-- The opcode map of rule R73; 0x00 and 0x07 to 0xFF are no opcode. -/
def opcodeOf (op : BitVec 8) : Option Opcode :=
  if op = 0x01#8 then some .init
  else if op = 0x02#8 then some .reset
  else if op = 0x03#8 then some .write
  else if op = 0x04#8 then some .sum
  else if op = 0x05#8 then some .size
  else if op = 0x06#8 then some .blocksize
  else none

/-- The variant an INIT's ARG selects (rule R74): 0x00 is SHA-256, 0x01 is SHA-224, no other is legal. -/
def variantOf (arg : BitVec 8) : Option Variant :=
  if arg = 0x00#8 then some .sha256
  else if arg = 0x01#8 then some .sha224
  else none

/-- A command whose ARG must be 0x00 (rule R74, last row). -/
def plainArg (arg : BitVec 8) (i : Instr) : Option Instr :=
  if arg = 0x00#8 then some i else none

/-- The command an opcode forms with ARG and DATA, where ARG is legal for it (rules R74, R80). -/
def operandsOf (op : Opcode) (arg : BitVec 8) (data : Word) : Option Instr :=
  match op with
  | .init => (variantOf arg).map .init
  | .reset => plainArg arg .reset
  | .write => if arg.toNat ≤ Config.maxWriteBytes then some (.write arg data) else none
  | .sum => plainArg arg .sum
  | .size => plainArg arg .size
  | .blocksize => plainArg arg .blocksize

/-- The decoder of rule R79. -/
def decode (r : Request) : Decoded :=
  match opcodeOf (opField r.cmd) with
  | none => .illegal .opcode
  | some op =>
    if rsvField r.cmd ≠ 0x0000#16 then .illegal .reserved
    else
      match operandsOf op (argField r.cmd) r.data with
      | none => .illegal .argument
      | some i => .legal i

/-! ## Encoding (rules R71, R73, R74, R80) -/

/-- The variant as INIT's ARG and as the VARIANT bit: 0 = SHA-256, 1 = SHA-224 (rule R24, rule R74). -/
def Variant.code : Variant → BitVec 8
  | .sha256 => 0x00#8
  | .sha224 => 0x01#8

/-- OP of a command (rule R73). -/
def Instr.op : Instr → BitVec 8
  | .init _ => 0x01#8
  | .reset => 0x02#8
  | .write _ _ => 0x03#8
  | .sum => 0x04#8
  | .size => 0x05#8
  | .blocksize => 0x06#8

/-- ARG of a command (rule R74). -/
def Instr.arg : Instr → BitVec 8
  | .init v => v.code
  | .reset => 0x00#8
  | .write n _ => n
  | .sum => 0x00#8
  | .size => 0x00#8
  | .blocksize => 0x00#8

/-- DATA of a command: only WRITE has one; the others are written with 0 (rule R72, rule R81). -/
def Instr.dataWord : Instr → Word
  | .write _ data => data
  | _ => 0x00000000#32

/-- The request of a command: OP || ARG || RSV with RSV = 0x0000, and DATA (rules R70, R71). -/
def encode (i : Instr) : Request :=
  { cmd := i.op ++ i.arg ++ 0x0000#16, data := i.dataWord }

/-! ## The opcode table's numbering -/

/-- The request whose bits are `w`, as spec/opcode_table.json numbers them: CMD is bits 31..0 (the first word)
and DATA bits 63..32; every bit from `nbits` up is 0. -/
def requestOfTableWord (nbits w : Nat) : Request :=
  let bits := w % 2 ^ nbits
  { cmd := BitVec.ofNat 32 bits, data := BitVec.ofNat 32 (bits / 2 ^ 32) }

/-- What the decoder reads from those bits. -/
def decodeTableWord (nbits w : Nat) : Option Instr :=
  match decode (requestOfTableWord nbits w) with
  | .legal i => some i
  | .illegal _ => none

end Sys2Proof
end

