-- ==== Sys2Proof/Machine/State.lean ====
section
/-! DEFINITION. The state of the block (10_state.md rule R20), the host's side of its interface
(30_encoding.md rule R70), the reasons a step can stop, and the state right after power-on.

Rule R20 lists all architectural state: CONSTRUCTED, VARIANT, H, BUF and LEN. The two fields `inputs` and
`responses` are not state of the block: they are the host's side of the transactions, the events still to come
and the responses already returned (rule R12: the observation is the sequence of responses; rule R29: what the
block does next is fixed by the host's command stream); see notes/assumptions/2.md. -/

namespace Sys2Proof.Machine

/-- H[0..7], the digest state: exactly eight 32-bit words (rule R21). -/
structure DigestState where
  h0 : Word
  h1 : Word
  h2 : Word
  h3 : Word
  h4 : Word
  h5 : Word
  h6 : Word
  h7 : Word
  deriving DecidableEq, Repr

/-- The status of a response (rule R77). -/
inductive Status where
  | ok
  | illegal
  deriving DecidableEq, Repr

/-- A response: a status and 0 to 8 payload words (rules R70, R76). -/
structure Response where
  status  : Status
  payload : List Word
  deriving DecidableEq, Repr

/-- What the outside can do to the block, one event at a time. -/
inductive Input where
  /-- The host issues one request (rule R70, rule R263). -/
  | request (r : Request)
  /-- Hardware reset is asserted (rule R260). `abandoned` is the request that was executing when it was, if one
  was: that command has no effect and gets no response (rule R261). -/
  | hardwareReset (abandoned : Option Request)
  deriving DecidableEq, Repr

structure State where
  /-- CONSTRUCTED, 1 bit (rule R25). -/
  constructed : Bool
  /-- VARIANT, 1 bit (rule R24). -/
  variant : Variant
  /-- H[0..7] (rule R21). -/
  h : DigestState
  /-- BUF, the pending buffer, oldest byte first, 0 to 63 bytes (rule R22). -/
  buf : List Byte
  /-- LEN, 64 bits (rule R23). -/
  len : Word64
  /-- The host's side: the events still to come, next first. -/
  inputs : List Input
  /-- The host's side: the responses returned so far, oldest first. No command reads it. -/
  responses : List Response
  deriving DecidableEq, Repr

/-- Why the machine stops with a fault. -/
inductive Fault where
  /-- The length limit (rules R243, R244), the one fault reason of the spec: raised by WRITE when LEN + n is above
  2^61 − 1, and by SUM in a state whose LEN is already above it, which no run reaches (notes/assumptions/4.md).
  SAFE: the spec gives the hardware no behaviour there, and the model gives no response and no next state. -/
  | lengthLimit
  deriving DecidableEq, Repr

/-- Why a step has no meaning. -/
inductive Refusal where
  /-- An instruction whose arm of `exec` has no meaning. No arm raises it: every command of the opcode table is
  modelled. SAFE: the model stops where the hardware goes on. -/
  | notModelled (mnemonic : String)
  deriving DecidableEq, Repr

/-- The block right after power-on (rule R260): CONSTRUCTED = 0 and no response is pending.
DESIGN CHOICE (UNSAFE, notes/assumptions/1.md): the spec leaves VARIANT, H, BUF and LEN unspecified there; the
model names SHA-256, zeros, the empty string and 0. No command reads them before an INIT overwrites them. -/
def State.reset : State where
  constructed := false
  variant := .sha256
  h := ⟨0, 0, 0, 0, 0, 0, 0, 0⟩
  buf := []
  len := 0
  inputs := []
  responses := []

end Sys2Proof.Machine
end

