-- ==== Sys2Proof/Machine/Flags.lean ====
section
/-! DEFINITION. The status of a response. The block keeps no flag or condition code (10_state.md rule R30): the
only status a program sees is the STATUS of each command's response, OK or ILLEGAL (30_encoding.md rule R77). -/

namespace Sys2Proof.Machine

/-- The STATUS code, rule R77: OK = 0 and ILLEGAL = 1 (one bit, 92_eei_decisions.md D23). -/
def Status.code : Status → BitVec 1
  | .ok => 0
  | .illegal => 1

/-- `respond(status, payload)` of rule R9: it ends a command and returns its one response (rule R70). -/
def State.respond (s : State) (status : Status) (payload : List Word) : State :=
  { s with responses := s.responses ++ [{ status := status, payload := payload }] }

end Sys2Proof.Machine
end

