-- ==== Sys2Proof/Machine/Codec.lean ====
section
/-! DEFINITION. The word/block codec, 40_codec.md rules R100 to R105. Everything is big-endian (rule R51): the byte
at the lowest index is the most significant. -/

namespace Sys2Proof.Machine

/-- BytesToWord, rule R100. -/
def bytesToWord (b0 b1 b2 b3 : Byte) : Word :=
  (b0.zeroExtend 32 <<< 24) ||| (b1.zeroExtend 32 <<< 16) ||| (b2.zeroExtend 32 <<< 8) ||| b3.zeroExtend 32

/-- WordToBytes, rule R101. -/
def wordToBytes (w : Word) : List Byte :=
  [w.extractLsb' 24 8, w.extractLsb' 16 8, w.extractLsb' 8 8, w.extractLsb' 0 8]

/-- BlockToWords, rule R102: four bytes a word, in order. Every caller gives exactly 64 bytes. -/
def blockToWords : List Byte → List Word
  | b0 :: b1 :: b2 :: b3 :: rest => bytesToWord b0 b1 b2 b3 :: blockToWords rest
  | _ => []

/-- WordsToBytes, rule R103. -/
def wordsToBytes (ws : List Word) : List Byte := ws.flatMap wordToBytes

/-- U64ToBytes, rule R104: most significant byte first. -/
def u64ToBytes (x : Word64) : List Byte :=
  [x.extractLsb' 56 8, x.extractLsb' 48 8, x.extractLsb' 40 8, x.extractLsb' 32 8,
   x.extractLsb' 24 8, x.extractLsb' 16 8, x.extractLsb' 8 8, x.extractLsb' 0 8]

/-- DigestWords, rule R105: all eight words for SHA-256, the first seven for SHA-224. -/
def digestWords (s : DigestState) (v : Variant) : List Word :=
  match v with
  | .sha256 => [s.h0, s.h1, s.h2, s.h3, s.h4, s.h5, s.h6, s.h7]
  | .sha224 => [s.h0, s.h1, s.h2, s.h3, s.h4, s.h5, s.h6]

/-- DigestBytes, rule R105. -/
def digestBytes (s : DigestState) (v : Variant) : List Byte := wordsToBytes (digestWords s v)

end Sys2Proof.Machine
end

