-- ==== Sys2Proof/Machine/Operands.lean ====
section
/-! DEFINITION. The operand forms (30_encoding.md rule R80) and the byte form of a response (rule R76). -/

namespace Sys2Proof.Machine

/-- d_i = DATA[31−8i : 24−8i], rule R80. -/
def messageByte (data : Word) (i : Nat) : Byte := data.extractLsb' (24 - 8 * i) 8

/-- d_0 … d_{n−1}, the message bytes of `WRITE n, DATA` (rule R80); the bits after the last byte are ignored. -/
def messageBytes (n : BitVec 8) (data : Word) : List Byte :=
  (List.range n.toNat).map (messageByte data)

/-- The digest size in bytes as SIZE answers it (rule R206): 32 or 28. -/
def digestSizeWord : Variant → Word
  | .sha256 => 0x00000020#32
  | .sha224 => 0x0000001C#32

/-- The block size in bytes as BLOCKSIZE answers it (rule R207). -/
def blockSizeWord : Word := 0x00000040#32

/-- The byte form of a response's payload, rule R76. -/
def Response.bytes (r : Response) : List Byte := wordsToBytes r.payload

end Sys2Proof.Machine
end

