-- ==== Sys2Proof/Machine/Constants.lean ====
section
/-! DEFINITION. The read-only constants of the block (10_state.md rule R33): the two initial vectors (rules R34, R35)
and the 64 round constants (41_compression.md rule R129). The spec marks their values as general knowledge that
it checked by computation; the statements InitialVectorsAreSquareRootBits and RoundConstantsAreCubeRootBits say that
they are the bits of the roots of primes those rules name (notes/assumptions/8.md). -/

namespace Sys2Proof.Machine

/-- IV256[0..7], rule R34. -/
def iv256 : DigestState where
  h0 := 0x6a09e667#32
  h1 := 0xbb67ae85#32
  h2 := 0x3c6ef372#32
  h3 := 0xa54ff53a#32
  h4 := 0x510e527f#32
  h5 := 0x9b05688c#32
  h6 := 0x1f83d9ab#32
  h7 := 0x5be0cd19#32

/-- IV224[0..7], rule R35. -/
def iv224 : DigestState where
  h0 := 0xc1059ed8#32
  h1 := 0x367cd507#32
  h2 := 0x3070dd17#32
  h3 := 0xf70e5939#32
  h4 := 0xffc00b31#32
  h5 := 0x68581511#32
  h6 := 0x64f98fa7#32
  h7 := 0xbefa4fa4#32

/-- IV(v), rule R35. -/
def initialVector : Variant → DigestState
  | .sha256 => iv256
  | .sha224 => iv224

/-! The round constants, eight a row as rule R129 lists them. -/

/-- K[0..7]. -/
def roundConstants0 : List Word :=
  [0x428a2f98#32, 0x71374491#32, 0xb5c0fbcf#32, 0xe9b5dba5#32,
   0x3956c25b#32, 0x59f111f1#32, 0x923f82a4#32, 0xab1c5ed5#32]

/-- K[8..15]. -/
def roundConstants8 : List Word :=
  [0xd807aa98#32, 0x12835b01#32, 0x243185be#32, 0x550c7dc3#32,
   0x72be5d74#32, 0x80deb1fe#32, 0x9bdc06a7#32, 0xc19bf174#32]

/-- K[16..23]. -/
def roundConstants16 : List Word :=
  [0xe49b69c1#32, 0xefbe4786#32, 0x0fc19dc6#32, 0x240ca1cc#32,
   0x2de92c6f#32, 0x4a7484aa#32, 0x5cb0a9dc#32, 0x76f988da#32]

/-- K[24..31]. -/
def roundConstants24 : List Word :=
  [0x983e5152#32, 0xa831c66d#32, 0xb00327c8#32, 0xbf597fc7#32,
   0xc6e00bf3#32, 0xd5a79147#32, 0x06ca6351#32, 0x14292967#32]

/-- K[32..39]. -/
def roundConstants32 : List Word :=
  [0x27b70a85#32, 0x2e1b2138#32, 0x4d2c6dfc#32, 0x53380d13#32,
   0x650a7354#32, 0x766a0abb#32, 0x81c2c92e#32, 0x92722c85#32]

/-- K[40..47]. -/
def roundConstants40 : List Word :=
  [0xa2bfe8a1#32, 0xa81a664b#32, 0xc24b8b70#32, 0xc76c51a3#32,
   0xd192e819#32, 0xd6990624#32, 0xf40e3585#32, 0x106aa070#32]

/-- K[48..55]. -/
def roundConstants48 : List Word :=
  [0x19a4c116#32, 0x1e376c08#32, 0x2748774c#32, 0x34b0bcb5#32,
   0x391c0cb3#32, 0x4ed8aa4a#32, 0x5b9cca4f#32, 0x682e6ff3#32]

/-- K[56..63]. -/
def roundConstants56 : List Word :=
  [0x748f82ee#32, 0x78a5636f#32, 0x84c87814#32, 0x8cc70208#32,
   0x90befffa#32, 0xa4506ceb#32, 0xbef9a3f7#32, 0xc67178f2#32]

/-- K[0..63], rule R129. -/
def roundConstants : List Word :=
  roundConstants0 ++ roundConstants8 ++ roundConstants16 ++ roundConstants24 ++
  roundConstants32 ++ roundConstants40 ++ roundConstants48 ++ roundConstants56

/-- K[t], rule R129, for t in 0..63. -/
def roundConstant (t : Nat) : Word := roundConstants.getD t 0

end Sys2Proof.Machine
end

