-- ==== Sys2Proof/Machine/Compression.lean ====
section
/-! DEFINITION. The compression core, 41_compression.md rules R120 to R134: the message schedule and 64 rounds. All of
it is pure (rule R135): no function here reads or writes the state of the block. Addition of words is modulo 2^32
(rule R120), which is `+` on `Word`. -/

namespace Sys2Proof.Machine

/-! ## Word functions -/

/-- ROTR^n(x), rule R121, for 0 < n < 32. -/
def rotr (n : Nat) (x : Word) : Word := (x >>> n) ||| (x <<< (32 - n))

/-- SHR^n(x), rule R122, for 0 < n < 32. -/
def shr (n : Nat) (x : Word) : Word := x >>> n

/-- Ch, rule R123. -/
def ch (x y z : Word) : Word := (x &&& y) ^^^ (~~~x &&& z)

/-- Maj, rule R124. -/
def maj (x y z : Word) : Word := (x &&& y) ^^^ (x &&& z) ^^^ (y &&& z)

/-- Σ0, rule R125. -/
def bigSigma0 (x : Word) : Word := rotr 2 x ^^^ rotr 13 x ^^^ rotr 22 x

/-- Σ1, rule R126. -/
def bigSigma1 (x : Word) : Word := rotr 6 x ^^^ rotr 11 x ^^^ rotr 25 x

/-- σ0, rule R127. -/
def smallSigma0 (x : Word) : Word := rotr 7 x ^^^ rotr 18 x ^^^ shr 3 x

/-- σ1, rule R128. -/
def smallSigma1 (x : Word) : Word := rotr 17 x ^^^ rotr 19 x ^^^ shr 10 x

/-! ## The message schedule (rule R130) -/

/-- W[t] from the words before it, newest first: `recent` is W[t−1], W[t−2], …; so W[t−2], W[t−7], W[t−15] and
W[t−16] stand at 1, 6, 14 and 15 (rule R130). -/
def nextScheduleWord (recent : List Word) : Word :=
  smallSigma1 (recent.getD 1 0) + recent.getD 6 0 + smallSigma0 (recent.getD 14 0) + recent.getD 15 0

/-- `k` more schedule words, newest first. -/
def extendSchedule : Nat → List Word → List Word
  | 0, recent => recent
  | k + 1, recent => extendSchedule k (nextScheduleWord recent :: recent)

/-- Schedule(B) = W[0..63], rule R130: the block's 16 words, then 48 computed ones. -/
def schedule (block : List Byte) : List Word :=
  (extendSchedule (Config.rounds - 16) (blockToWords block).reverse).reverse

/-! ## The rounds (rules R131, R132) -/

/-- The eight working variables, internal to one compression (rule R131, rule R32). -/
structure Working where
  a : Word
  b : Word
  c : Word
  d : Word
  e : Word
  f : Word
  g : Word
  h : Word
  deriving DecidableEq, Repr

/-- The working variables before round 0, rule R131. -/
def loadWorking (s : DigestState) : Working := ⟨s.h0, s.h1, s.h2, s.h3, s.h4, s.h5, s.h6, s.h7⟩

/-- T1 of round t, rule R132. -/
def roundT1 (t : Nat) (v : Working) (w : Word) : Word :=
  v.h + bigSigma1 v.e + ch v.e v.f v.g + roundConstant t + w

/-- T2 of a round, rule R132. -/
def roundT2 (v : Working) : Word := bigSigma0 v.a + maj v.a v.b v.c

/-- Round t, rule R132: all eight outputs from the inputs of the same round. -/
def compressionRound (t : Nat) (v : Working) (w : Word) : Working where
  a := roundT1 t v w + roundT2 v
  b := v.a
  c := v.b
  d := v.c
  e := v.d + roundT1 t v w
  f := v.e
  g := v.f
  h := v.g

/-- Rounds 0 to n − 1 over the schedule `ws`, rule R134. -/
def runRounds (n : Nat) (ws : List Word) (v : Working) : Working :=
  (List.range n).foldl (fun v t => compressionRound t v (ws.getD t 0)) v

/-- The final addition, rule R133. -/
def addBack (s : DigestState) (v : Working) : DigestState where
  h0 := s.h0 + v.a
  h1 := s.h1 + v.b
  h2 := s.h2 + v.c
  h3 := s.h3 + v.d
  h4 := s.h4 + v.e
  h5 := s.h5 + v.f
  h6 := s.h6 + v.g
  h7 := s.h7 + v.h

/-- Compress(S, B), rule R134. -/
def compress (s : DigestState) (block : List Byte) : DigestState :=
  addBack s (runRounds Config.rounds (schedule block) (loadWorking s))

end Sys2Proof.Machine
end

