-- ==== Sys2Proof/Machine/Padding.lean ====
section
/-! DEFINITION. The padding and length encoder, 42_padding.md rules R180 to R185. Pure: the live state is never
touched (rule R186). The byte count L is an exact number here, in the encoder's domain L ≤ 2^61 − 1 (rule R180),
where 8·L fits the 64-bit field; SUM faults outside it (notes/assumptions/4.md). -/

namespace Sys2Proof.Machine

/-- k = (55 − r) mod 64, the number of zero bytes (rule R181); mod is the non-negative remainder (rule R9). -/
def padZeros (r : Nat) : Nat := ((55 - (r : Int)) % 64).toNat

/-- Pad(T, L), rule R181. -/
def pad (tail : List Byte) (total : Nat) : List Byte :=
  tail ++ [0x80#8] ++ List.replicate (padZeros tail.length) 0x00#8 ++ u64ToBytes (BitVec.ofNat 64 (8 * total))

/-- P[64j .. 64j+64) for j = 0 … len(P)/64 − 1, rule R185. -/
def fullBlocks (p : List Byte) : List (List Byte) :=
  (List.range (p.length / Config.blockBytes)).map fun j =>
    (p.drop (Config.blockBytes * j)).take Config.blockBytes

/-- Compress folded over the full blocks of a byte string, in order (rules R26, R185). -/
def compressAll (s : DigestState) (p : List Byte) : DigestState := (fullBlocks p).foldl compress s

/-- Finalize(S, T, L, v), rule R185, on a scratch copy of the state. -/
def finalize (s : DigestState) (tail : List Byte) (total : Nat) (v : Variant) : List Word :=
  digestWords (compressAll s (pad tail total)) v

end Sys2Proof.Machine
end

