-- ==== Sys2Proof/Machine/Ops.lean ====
section
/-! DEFINITION. The named operations over the state: loading the initial vector, absorbing message bytes, answering
ILLEGAL, and hardware reset.

The block has no address space (20_memory.md rule R50), so there is no operation over memory. It has no trap
mechanism (60_exceptions.md rule R246): what an abnormal request takes is `State.answerIllegal`, the ONE shared
operation for it, and there is nothing to return from (rule R247). -/

namespace Sys2Proof.Machine

/-- H <- IV(v), BUF <- empty, LEN <- 0: the assignments INIT and RESET share (rules R201, R202, R36). -/
def State.startMessage (s : State) (v : Variant) : State :=
  { s with h := initialVector v, buf := [], len := 0 }

/-- AbsorbByte(d), rule R204. -/
def State.absorbByte (s : State) (d : Byte) : State :=
  let filled := s.buf ++ [d]
  if filled.length = Config.blockBytes then
    { s with h := compress s.h filled, buf := [], len := s.len + 1 }
  else
    { s with buf := filled, len := s.len + 1 }

/-- AbsorbByte for each byte in order, rule R203. -/
def State.absorb (s : State) (bytes : List Byte) : State := bytes.foldl State.absorbByte s

/-- The effect of an ILLEGAL request, rule R242: the response (ILLEGAL, empty) and no state change. -/
def State.answerIllegal (s : State) : State := s.respond .illegal []

/-- Hardware reset, rules R260 and R261: every element of the block as it is right after power-on. What the host has
still to send and the responses it has got are the host's, and stay. -/
def State.hardwareReset (s : State) : State :=
  { State.reset with inputs := s.inputs, responses := s.responses }

/-- Condition 4 of rule R241: a command other than INIT is ILLEGAL while CONSTRUCTED = 0. -/
def requireConstructed (s : State) (run : Host.Outcome State Fault Refusal) : Host.Outcome State Fault Refusal :=
  if s.constructed then run else .next s.answerIllegal

/-- The length test of rule R243 for `n` more bytes: LEN + n ≤ 2^61 − 1, computed exactly. -/
def State.hasRoom (s : State) (n : Nat) : Bool := decide (s.len.toNat + n ≤ Config.lengthLimit)

end Sys2Proof.Machine
end

