-- ==== Sys2Proof/Machine/Accumulate.lean ====
section
/-! DEFINITION. The command WRITE, 43_commands.md rule R203. -/

namespace Sys2Proof.Machine

/-- `WRITE n, DATA`, rule R203. A count above 4 is ILLEGAL (rule R241 condition 3; the decoder rejects it before it
comes here), then an unconstructed block answers ILLEGAL (condition 4), then the length test is made once, before the
first byte (rule R243). -/
def execWrite (n : BitVec 8) (data : Word) (s : State) : Host.Outcome State Fault Refusal :=
  if n.toNat ≤ Config.maxWriteBytes then
    requireConstructed s
      (if s.hasRoom n.toNat then .next ((s.absorb (messageBytes n data)).respond .ok [])
       else .fault .lengthLimit)
  else .next s.answerIllegal

end Sys2Proof.Machine
end

