-- ==== Sys2Proof/Machine/Lifecycle.lean ====
section
/-! DEFINITION. The initialising commands INIT and RESET, 43_commands.md rules R201 and R202. -/

namespace Sys2Proof.Machine

/-- `INIT v`, rule R201: legal in every state. -/
def execInit (v : Variant) (s : State) : Host.Outcome State Fault Refusal :=
  .next (({ s.startMessage v with variant := v, constructed := true } : State).respond .ok [])

/-- `RESET`, rule R202: VARIANT and CONSTRUCTED stay. -/
def execReset (s : State) : Host.Outcome State Fault Refusal :=
  requireConstructed s (.next ((s.startMessage s.variant).respond .ok []))

end Sys2Proof.Machine
end

