-- ==== Sys2Proof/Machine/Query.lean ====
section
/-! DEFINITION. The commands that change no state: SUM, SIZE and BLOCKSIZE, 43_commands.md rules R205 to R207. -/

namespace Sys2Proof.Machine

/-- `SUM`, rule R205. The encoder is defined for LEN ≤ 2^61 − 1 (rule R180); above it, in states no run reaches, the
model faults and computes no wrapped length (rule R243; DESIGN CHOICE, safe, notes/assumptions/4.md). -/
def execSum (s : State) : Host.Outcome State Fault Refusal :=
  requireConstructed s
    (if s.hasRoom 0 then .next (s.respond .ok (finalize s.h s.buf s.len.toNat s.variant))
     else .fault .lengthLimit)

/-- `SIZE`, rule R206. -/
def execSize (s : State) : Host.Outcome State Fault Refusal :=
  requireConstructed s (.next (s.respond .ok [digestSizeWord s.variant]))

/-- `BLOCKSIZE`, rule R207. -/
def execBlocksize (s : State) : Host.Outcome State Fault Refusal :=
  requireConstructed s (.next (s.respond .ok [blockSizeWord]))

end Sys2Proof.Machine
end

