-- ==== Sys2Proof/Machine/Dispatch.lean ====
section
/-! DEFINITION. The dispatch of 43_commands.md rule R200: one arm per command, one meaning per arm. -/

namespace Sys2Proof.Machine

def exec (i : Instr) (s : State) : Host.Outcome State Fault Refusal :=
  match i with
  | .init v => Sys2Proof.Machine.execInit v s
  | .reset => Sys2Proof.Machine.execReset s
  | .write n data => Sys2Proof.Machine.execWrite n data s
  | .sum => Sys2Proof.Machine.execSum s
  | .size => Sys2Proof.Machine.execSize s
  | .blocksize => Sys2Proof.Machine.execBlocksize s

end Sys2Proof.Machine
end

