-- ==== Sys2Proof/Machine/Fetch.lean ====
section
/-! DEFINITION. Taking the next event of the host's side and executing it: 43_commands.md rule R200 for a request,
70_reset_and_hazards.md rules R260 and R261 for a hardware reset. -/

namespace Sys2Proof.Machine

/-- Execute(CMD, DATA), rule R200: an illegal encoding answers ILLEGAL (rules R241, R242); a legal command runs. -/
def execRequest (r : Request) (s : State) : Host.Outcome State Fault Refusal :=
  match decode r with
  | .illegal _ => .next s.answerIllegal
  | .legal i => exec i s

/-- One event of the host's side. -/
def execInput (e : Input) (s : State) : Host.Outcome State Fault Refusal :=
  match e with
  | .request r => execRequest r s
  | .hardwareReset _ => .next s.hardwareReset

/-- One step: the next event, taken off the host's side before it is executed (rule R263: the block takes one request
and completes it before the next). With no event to come the block is idle and holds its state (rule R250). -/
def stepOnce (s : State) : Host.Outcome State Fault Refusal :=
  match s.inputs with
  | [] => .next s
  | e :: rest => execInput e { s with inputs := rest }

/-- `s` with the request of the table word in front of everything the host has still to send. -/
def State.placeRequest (s : State) (nbits w : Nat) : State :=
  { s with inputs := .request (requestOfTableWord nbits w) :: s.inputs }

end Sys2Proof.Machine
end

