-- ==== Sys2Proof/Machine/Step.lean ====
section
/-! DEFINITION. The step function: one event of the host's side, one atomic step (rules R12, R56). -/

namespace Sys2Proof.Machine

/-- One step of the block (rule R200). -/
def step (s : State) : Host.Outcome State Fault Refusal := stepOnce s

/-- `s` with that request placed where `step` takes its next event. The block has no program counter and no memory
(rules R29, R50): the host hands it its commands (notes/assumptions/3.md). -/
def State.withFetchWord (s : State) (nbits w : Nat) : State := s.placeRequest nbits w

end Sys2Proof.Machine
end

