-- ==== Sys2Proof/Machine/Assembler.lean ====
section
/-! DEFINITION. The command-stream notation of 30_encoding.md rules R81 to R83: one line of a command stream as
requests, the pseudo-instructions WRITES and HASH, and the text form of the lines rule R81 lists. It is notation
for the host's requests (92_eei_decisions.md D19); no command of the block depends on it. -/

namespace Sys2Proof.Machine

/-- A line of a command stream: a command, a verbatim pair of words (`.word`), or a pseudo-instruction. -/
inductive Line where
  | command (i : Instr)
  | word (cmd data : Word)
  | writes (s : List Byte)
  | hash (v : Variant) (s : List Byte)
  deriving DecidableEq, Repr

/-- w_j of rule R82: the bytes in the top of the word, the rest 0x00. -/
def packBytes (piece : List Byte) : Word :=
  bytesToWord (piece.getD 0 0) (piece.getD 1 0) (piece.getD 2 0) (piece.getD 3 0)

/-- One WRITE of at most four bytes, rule R82. -/
def writeOf (piece : List Byte) : Instr := .write (BitVec.ofNat 8 piece.length) (packBytes piece)

/-- `WRITES s`, rule R82: ⌈len(s)/4⌉ WRITE commands, command j with s[4j .. 4j + min(4, len(s) − 4j)). -/
def writesOf (s : List Byte) : List Instr :=
  (List.range ((s.length + 3) / 4)).map fun j => writeOf ((s.drop (4 * j)).take 4)

/-- `HASH v, s`, rule R83: INIT, WRITES, SUM. -/
def hashOf (v : Variant) (s : List Byte) : List Instr := .init v :: (writesOf s ++ [.sum])

/-- The requests a line stands for. -/
def Line.requests : Line → List Request
  | .command i => [encode i]
  | .word cmd data => [{ cmd := cmd, data := data }]
  | .writes s => (writesOf s).map encode
  | .hash v s => (hashOf v s).map encode

/-! ## The text of a line (rule R81)

Mnemonics are case-insensitive, `;` starts a comment, n is decimal 0 to 4, a word is 0x and eight hexadecimal digits
(`parseSecondWord` takes one more form).
The byte string of WRITES and HASH is a quoted ASCII text (rule R8, the example of rule R82); the spec gives no text
form for other bytes (notes/assumptions/12.md). -/

/-- The line up to a comment, in lower case. -/
def stripLine (cs : List Char) : List Char := (cs.takeWhile (· ≠ ';')).map Char.toLower

/-- A pending token, if it holds any character, in front of the tokens after it. -/
def flushToken (tok : List Char) (rest : List (List Char)) : List (List Char) :=
  if tok = [] then rest else tok.reverse :: rest

/-- The tokens of a line: words separated by blanks, and each comma a token of its own. -/
def tokens : List Char → List Char → List (List Char)
  | [], tok => flushToken tok []
  | c :: cs, tok =>
    if c = ' ' ∨ c = '\t' then flushToken tok (tokens cs [])
    else if c = ',' then flushToken tok ([','] :: tokens cs [])
    else tokens cs (c :: tok)

/-- The value of a hexadecimal digit, in lower case. -/
def hexDigit (c : Char) : Option Nat :=
  if '0' ≤ c ∧ c ≤ '9' then some (c.toNat - '0'.toNat)
  else if 'a' ≤ c ∧ c ≤ 'f' then some (c.toNat - 'a'.toNat + 10)
  else none

/-- A run of hexadecimal digits, most significant first. -/
def hexValue : List Char → Nat → Option Nat
  | [], acc => some acc
  | c :: cs, acc => (hexDigit c).bind fun d => hexValue cs (16 * acc + d)

/-- 0xHHHHHHHH, the one form rule R81's table gives a word. -/
def parseWord : List Char → Option Word
  | '0' :: 'x' :: digits => if digits.length = 8 then (hexValue digits 0).map (BitVec.ofNat 32) else none
  | _ => none

/-- The second word of `.word`: 0xHHHHHHHH as rule R81's table has it, or a bare `0` for 0x00000000, as program P5 of
95_test_vectors.md writes it in steps 2 and 7. DESIGN CHOICE (safe, notes/assumptions/12.md): the table and the
program differ, and no rule says how far the bare form goes; here it goes no further than the program. -/
def parseSecondWord (cs : List Char) : Option Word := if cs = ['0'] then some 0x00000000#32 else parseWord cs

/-- n, decimal, 0 to 4. -/
def parseCount : List Char → Option (BitVec 8)
  | ['0'] => some 0
  | ['1'] => some 1
  | ['2'] => some 2
  | ['3'] => some 3
  | ['4'] => some 4
  | _ => none

/-- The line that tokens stand for, as rule R81 lists them. -/
def lineOfTokens : List (List Char) → Option Line
  | [op] =>
    if op = ['r', 'e', 's', 'e', 't'] then some (.command .reset)
    else if op = ['s', 'u', 'm'] then some (.command .sum)
    else if op = ['s', 'i', 'z', 'e'] then some (.command .size)
    else if op = ['b', 'l', 'o', 'c', 'k', 's', 'i', 'z', 'e'] then some (.command .blocksize)
    else none
  | [op, v] =>
    if op = ['i', 'n', 'i', 't'] then
      if v = ['s', 'h', 'a', '2', '5', '6'] then some (.command (.init .sha256))
      else if v = ['s', 'h', 'a', '2', '2', '4'] then some (.command (.init .sha224))
      else none
    else none
  | [op, x, comma, y] =>
    if comma = [','] then
      if op = ['w', 'r', 'i', 't', 'e'] then
        (parseCount x).bind fun n => (parseWord y).map fun d => .command (.write n d)
      else if op = ['.', 'w', 'o', 'r', 'd'] then
        (parseWord x).bind fun c => (parseSecondWord y).map fun d => .word c d
      else none
    else none
  | _ => none

/-! ### Lines with a quoted byte string (rules R8, R82, R83) -/

/-- The quotation mark, code 34. -/
def quoteMark : Char := Char.ofNat 34

/-- The characters in front of the first quotation mark or comment, whichever comes first (notes/assumptions/12.md). -/
def beforeQuote (cs : List Char) : List Char := cs.takeWhile fun c => c ≠ ';' && c ≠ quoteMark

/-- What follows the first quotation mark that no comment hides, if there is one. -/
def afterQuote (cs : List Char) : Option (List Char) :=
  match cs.drop (beforeQuote cs).length with
  | c :: rest => if c = quoteMark then some rest else none
  | [] => none

/-- The byte string of a quoted text: its ASCII codes (rule R8). -/
def asciiBytes (cs : List Char) : Option (List Byte) :=
  if cs.all fun c => c.toNat < 128 then some (cs.map fun c => BitVec.ofNat 8 c.toNat) else none

/-- WRITES or HASH, from the tokens in front of the byte string. -/
def pseudoOfTokens (toks : List (List Char)) (bytes : List Byte) : Option Line :=
  match toks with
  | [op] => if op = ['w', 'r', 'i', 't', 'e', 's'] then some (.writes bytes) else none
  | [op, v, comma] =>
    if op = ['h', 'a', 's', 'h'] ∧ comma = [','] then
      if v = ['s', 'h', 'a', '2', '5', '6'] then some (.hash .sha256 bytes)
      else if v = ['s', 'h', 'a', '2', '2', '4'] then some (.hash .sha224 bytes)
      else none
    else none
  | _ => none

/-- A line whose quotation mark is followed by `rest`: the text up to the closing mark, then nothing but a comment.
DESIGN CHOICE (safe, notes/assumptions/12.md): rule R81 says that `;` starts a comment and makes no exception for a
quoted text; here a `;` between the quotation marks starts none and is the byte 0x3B of the string. -/
def quotedLine (front rest : List Char) : Option Line :=
  let text := rest.takeWhile (· ≠ quoteMark)
  match rest.drop text.length with
  | [] => none
  | _ :: after =>
    if tokens (stripLine after) [] = [] then
      (asciiBytes text).bind (pseudoOfTokens (tokens (stripLine front) []))
    else none

/-- One line of text, rules R81 to R83. -/
def parseLine (cs : List Char) : Option Line :=
  match afterQuote cs with
  | none => lineOfTokens (tokens (stripLine cs) [])
  | some rest => quotedLine (beforeQuote cs) rest

end Sys2Proof.Machine
end

