-- ==== Sys2Proof/Machine/Instances.lean ====
section
/-! DEFINITION. Several instances of the block side by side (20_memory.md rule R62, 60_exceptions.md rule R249): each
has its own state, they share only the read-only constants, and one command goes to one instance. -/

namespace Sys2Proof.Machine

/-- One step of instance `k` of a system; a place that holds no instance does nothing. -/
def stepInstance (k : Nat) (system : List State) : Host.Outcome (List State) Fault Refusal :=
  match system[k]? with
  | none => .next system
  | some s =>
    match step s with
    | .next t => .next (system.set k t)
    | .fault f => .fault f
    | .refused r => .refused r

end Sys2Proof.Machine
end

