-- ==== Sys2Proof/Machine/Work.lean ====
section
/-! DEFINITION. The number of compressions a command performs, the table of 70_reset_and_hazards.md rule R265. It is
timing information only: nothing of the machine reads it (rule R265). -/

namespace Sys2Proof.Machine

/-- The table of rule R265, for a command that is legal in `s`; any ILLEGAL request performs none. -/
def compressions (i : Instr) (s : State) : Nat :=
  if s.constructed then
    match i with
    | .init _ => 0
    | .reset => 0
    | .write n _ => if n.toNat ≤ Config.maxWriteBytes ∧ Config.blockBytes ≤ s.buf.length + n.toNat then 1 else 0
    | .sum => if s.buf.length ≤ 55 then 1 else 2
    | .size => 0
    | .blocksize => 0
  else 0

end Sys2Proof.Machine
end

