-- ==== Sys2Proof/Safety.lean ====
section
/-! DEFINITION. What the statements about the block are said in terms of: the buffer invariant (10_state.md rules R22,
R23), the message a state holds (rule R26), the digest of a whole message (42_padding.md rule R187), and runs of
commands. -/

namespace Sys2Proof.Safety

open Sys2Proof.Machine

/-! ## Invariants -/

/-- Rules R22, R23 and the first sentence of R26: while CONSTRUCTED = 1, len(BUF) < 64, LEN is in its defined range
and len(BUF) = LEN mod 64. -/
def BufferInv (s : State) : Prop :=
  s.constructed = true →
    s.buf.length < 64 ∧ s.len.toNat ≤ 2 ^ 61 - 1 ∧ s.buf.length = s.len.toNat % 64

/-- Rule R26: the constructed block `s` has absorbed exactly the message `m` since the last INIT or RESET. -/
def Holds (s : State) (m : List Byte) : Prop :=
  s.constructed = true ∧ m.length ≤ 2 ^ 61 - 1 ∧ s.len.toNat = m.length ∧
  s.buf = m.drop (64 * (m.length / 64)) ∧
  s.h = compressAll (initialVector s.variant) m

/-- Rule R26 as an invariant: a constructed block holds some message. -/
def MessageInv (s : State) : Prop := s.constructed = true → ∃ m, Holds s m

/-! ## The digest of a whole message -/

/-- The hash of `m` on its own, with no state and no buffer: the WHOLE message padded (0x80, the least number of zero
bytes that gives a multiple of 64, the 64-bit bit length), cut into 64-byte blocks, compressed from the variant's
initial vector, truncated (rules R181, R134, R105; rule R187 says the live state gives this). -/
def messageDigest (v : Variant) (m : List Byte) : List Word :=
  digestWords (compressAll (initialVector v) (pad m m.length)) v

/-! ## What a request asks for -/

/-- Conditions 1 to 3 of rule R241 on the bits of CMD alone, without the decoder's tables. -/
def MalformedWord (cmd : Word) : Prop :=
  ¬ (1 ≤ (cmd.extractLsb' 24 8).toNat ∧ (cmd.extractLsb' 24 8).toNat ≤ 6) ∨
  cmd.extractLsb' 0 16 ≠ 0 ∨
  ((cmd.extractLsb' 24 8).toNat = 1 ∧ 1 < (cmd.extractLsb' 16 8).toNat) ∨
  ((cmd.extractLsb' 24 8).toNat = 3 ∧ 4 < (cmd.extractLsb' 16 8).toNat) ∨
  ((cmd.extractLsb' 24 8).toNat ≠ 1 ∧ (cmd.extractLsb' 24 8).toNat ≠ 3 ∧ cmd.extractLsb' 16 8 ≠ 0)

/-- A request is ILLEGAL, rule R241: malformed, or any command but INIT while CONSTRUCTED = 0. -/
def IllegalRequest (s : State) (cmd : Word) : Prop :=
  MalformedWord cmd ∨ (s.constructed = false ∧ (cmd.extractLsb' 24 8).toNat ≠ 1)

/-- The eleven legal command words, in the order rule R75 lists them. -/
def legalWords : List Word :=
  [0x01000000#32, 0x01010000#32, 0x02000000#32,
   0x03000000#32, 0x03010000#32, 0x03020000#32, 0x03030000#32, 0x03040000#32,
   0x04000000#32, 0x05000000#32, 0x06000000#32]

/-! ## The primes behind the constants -/

/-- The primes below 312, in order: the first 64 primes, 2 to 311 (rule R129), by trial division. -/
def firstPrimes : List Nat :=
  (List.range 312).filter fun p => decide (2 ≤ p) && (List.range p).all fun d => decide (d < 2) || decide (p % d ≠ 0)

/-- `k` is the first 32 bits of the fractional part of the cube root of `p` (rule R129): with the integer part q,
q·2^32 + k is the floor of 2^32 times the cube root. -/
def IsCubeRootFraction (p k : Nat) : Prop :=
  ∃ q < 16, k < 2 ^ 32 ∧ (q * 2 ^ 32 + k) ^ 3 ≤ p * 2 ^ 96 ∧ p * 2 ^ 96 < (q * 2 ^ 32 + k + 1) ^ 3

/-- `k` is the first 32 bits of the fractional part of the square root of `p` (rule R34). -/
def IsSquareRootFraction (p k : Nat) : Prop :=
  ∃ q < 16, k < 2 ^ 32 ∧ (q * 2 ^ 32 + k) ^ 2 ≤ p * 2 ^ 64 ∧ p * 2 ^ 64 < (q * 2 ^ 32 + k + 1) ^ 2

/-- `k` is the second 32 bits, bits 33 to 64 after the binary point, of the square root of `p` (rule R35):
`x` is the floor of 2^64 times the root, and `k` its low 32 bits. -/
def IsSecondSquareRootFraction (p k : Nat) : Prop :=
  ∃ x, x ^ 2 ≤ p * 2 ^ 128 ∧ p * 2 ^ 128 < (x + 1) ^ 2 ∧ k = x % 2 ^ 32

/-! ## Runs of commands -/

/-- The requests of commands, as the host issues them. -/
def requests (is : List Instr) : List Input := is.map fun i => .request (encode i)

/-- `k` steps, stopping at the first fault or refusal: what `Host.Core.run` does with this machine
(Sys2Proof/Laws/Step.lean, `run_core`). -/
def runSteps : Nat → State → Host.Outcome State Fault Refusal
  | 0, s => .next s
  | k + 1, s =>
    match step s with
    | .next t => runSteps k t
    | .fault f => .fault f
    | .refused r => .refused r

/-- The outcome of issuing the commands `is`, one after another, to the block in `s`: one step a command. -/
def issue (is : List Instr) (s : State) : Host.Outcome State Fault Refusal :=
  runSteps is.length ({ s with inputs := requests is } : State)

/-- Two states of the block agree on every element of rule R20. -/
def SameBlock (s t : State) : Prop :=
  s.constructed = t.constructed ∧ s.variant = t.variant ∧ s.h = t.h ∧ s.buf = t.buf ∧ s.len = t.len

/-- The response of a command that returns no data (rule R76). -/
def okEmpty : Response := { status := .ok, payload := [] }

/-- The response of an ILLEGAL request (rule R242). -/
def illegalEmpty : Response := { status := .illegal, payload := [] }

/-- The response that carries `ws` (rule R76). -/
def okWith (ws : List Word) : Response := { status := .ok, payload := ws }

end Sys2Proof.Safety
end

