-- ==== Sys2Proof/Certificates/Slice0/Obligations.lean ====
section
/-! DEFINITION. The statements for the provers. Each docstring names the rules of spec/ it formalises.

`Sys2Proof.Safety` holds the notions they are said in; a request is written out as its two words wherever the rule
gives the words. -/

open Sys2Proof Sys2Proof.Machine Sys2Proof.Safety

/-! ## Decoding and encoding (30_encoding.md) -/

/-- A step runs the decoded command (rules R200, R263): with a request that decodes to `i` next on the host's side,
`step` is `exec i` on the state that has taken that request off. -/
def Obligations.StepExecutesDecodedRequest : Prop :=
  ∀ (s : State) (r : Request) (rest : List Input) (i : Instr),
    s.inputs = .request r :: rest → decode r = .legal i →
    step s = exec i ({ s with inputs := rest } : State)

/-- Decode and encode agree (rules R71, R73, R74, R80): no bit of an encoding is dropped. Every well-formed command
comes back from its own words; and whatever decodes is well-formed, has that command word, and, for WRITE, that
data word. -/
def Obligations.DecodeEncodeRoundTrip : Prop :=
  (∀ i : Instr, i.wellFormed = true → decode (encode i) = .legal i) ∧
  (∀ (r : Request) (i : Instr), decode r = .legal i →
    i.wellFormed = true ∧ (encode i).cmd = r.cmd ∧ ∀ n d, i = .write n d → d = r.data)

/-- Rule R75: a command word is legal exactly when OP, RSV and ARG are, that is exactly when it is one of the eleven
words listed; any other word answers ILLEGAL and changes no state. -/
def Obligations.ExactlyElevenLegalWords : Prop :=
  ∀ (cmd data : Word),
    ((∃ i, decode ⟨cmd, data⟩ = .legal i) ↔ ¬ MalformedWord cmd) ∧
    ((∃ i, decode ⟨cmd, data⟩ = .legal i) ↔ cmd ∈ legalWords) ∧
    (cmd ∉ legalWords → ∀ (s : State) (rest : List Input), s.inputs = .request ⟨cmd, data⟩ :: rest →
      step s = .next ({ s with inputs := rest, responses := s.responses ++ [illegalEmpty] } : State))

/-- Rules R79 and R241: decoding is total (one of the eleven legal words, or ILLEGAL), OP is checked first (rule R79),
then RSV, then ARG (the order of rule R241), and DATA never decides legality: another data word gives the same verdict,
and the same command but for the data a WRITE carries. The named causes `.opcode`, `.reserved` and `.argument`, through
which the order is said, are the model's own (notes/assumptions/17.md): rule R241 records no cause and says that the
order cannot be observed. -/
def Obligations.DecodingOrderAndDataIndependence : Prop :=
  (∀ r : Request, decode r = .illegal .opcode ↔
    ¬ (1 ≤ (r.cmd.extractLsb' 24 8).toNat ∧ (r.cmd.extractLsb' 24 8).toNat ≤ 6)) ∧
  (∀ r : Request, decode r = .illegal .reserved ↔
    (1 ≤ (r.cmd.extractLsb' 24 8).toNat ∧ (r.cmd.extractLsb' 24 8).toNat ≤ 6) ∧ r.cmd.extractLsb' 0 16 ≠ 0) ∧
  (∀ r : Request, (r.cmd ∈ legalWords ∧ ∃ i, decode r = .legal i) ∨ decode r = .illegal .opcode ∨ decode r = .illegal .reserved ∨
    decode r = .illegal .argument) ∧
  (∀ cmd d1 d2 : Word, decode ⟨cmd, d2⟩ =
    match decode ⟨cmd, d1⟩ with
    | .legal (.write n _) => .legal (.write n d2)
    | other => other)

/-- Rule R84's encoding examples, and a word of each of the other commands from rules R73 and R75. -/
def Obligations.EncodingExamples : Prop :=
  (encode (.init .sha224)).cmd = 0x01010000#32 ∧
  decode ⟨0x01010000#32, 0#32⟩ = .legal (.init .sha224) ∧
  encode (.write 3 0x61626300#32) = ⟨0x03030000#32, 0x61626300#32⟩ ∧
  decode ⟨0x03030000#32, 0x61626300#32⟩ = .legal (.write 3 0x61626300#32) ∧
  messageBytes 3 0x61626300#32 = [0x61#8, 0x62#8, 0x63#8] ∧
  messageBytes 3 0x616263FF#32 = [0x61#8, 0x62#8, 0x63#8] ∧
  decode ⟨0x01020000#32, 0#32⟩ = .illegal .argument ∧
  decode ⟨0x03050000#32, 0#32⟩ = .illegal .argument ∧
  decode ⟨0x04000001#32, 0#32⟩ = .illegal .reserved ∧
  decode ⟨0x07000000#32, 0#32⟩ = .illegal .opcode ∧
  decode ⟨0x02000000#32, 0#32⟩ = .legal .reset ∧ decode ⟨0x04000000#32, 0#32⟩ = .legal .sum ∧
  decode ⟨0x05000000#32, 0#32⟩ = .legal .size ∧ decode ⟨0x06000000#32, 0#32⟩ = .legal .blocksize

/-- Rules R72 and R80: DATA is read only by WRITE, and only its first n bytes. Two requests with the same command
word whose data words agree on the bytes a WRITE takes have the same outcome in every state. -/
def Obligations.OnlyMessageBytesOfDataAreRead : Prop :=
  ∀ (s : State) (rest : List Input) (cmd d1 d2 : Word),
    (cmd.extractLsb' 24 8 = 0x03#8 →
      ∀ i, i < (cmd.extractLsb' 16 8).toNat → d1.extractLsb' (24 - 8 * i) 8 = d2.extractLsb' (24 - 8 * i) 8) →
    step ({ s with inputs := .request ⟨cmd, d1⟩ :: rest } : State) =
      step ({ s with inputs := .request ⟨cmd, d2⟩ :: rest } : State)

/-- Rules R241 and R242: a request is ILLEGAL exactly under the four conditions; its whole effect is the response
(ILLEGAL, empty), and every other request that is answered is answered OK. -/
def Obligations.IllegalRequestOnlyAnswers : Prop :=
  ∀ (s : State) (rest : List Input) (cmd data : Word), s.inputs = .request ⟨cmd, data⟩ :: rest →
    (IllegalRequest s cmd →
      step s = .next ({ s with inputs := rest, responses := s.responses ++ [illegalEmpty] } : State)) ∧
    (¬ IllegalRequest s cmd → ∀ t, step s = .next t → ∃ ws, t.responses = s.responses ++ [okWith ws])

/-! ## The commands (43_commands.md) -/

/-- Rule R201: INIT completes in every state, and leaves the fresh engine of its variant, whatever was there. -/
def Obligations.InitConstructsFreshEngine : Prop :=
  ∀ (v : Variant) (s : State),
    exec (.init v) s = .next
      { constructed := true, variant := v, h := initialVector v, buf := [], len := 0,
        inputs := s.inputs, responses := s.responses ++ [okEmpty] } ∧
    (∀ (d : Word) (rest : List Input),
      s.inputs = .request ⟨match v with | .sha256 => 0x01000000#32 | .sha224 => 0x01010000#32, d⟩ :: rest →
      step s = .next
        { constructed := true, variant := v, h := initialVector v, buf := [], len := 0,
          inputs := rest, responses := s.responses ++ [okEmpty] })

/-- Rule R202: on a constructed block RESET completes and restores H, BUF and LEN, and nothing else; on an
unconstructed one it is ILLEGAL. After INIT, one RESET or two leave the state of INIT alone. -/
def Obligations.ResetRestoresPostConstructState : Prop :=
  (∀ s : State, s.constructed = true →
    exec .reset s = .next ({ s with h := initialVector s.variant, buf := [], len := 0,
                                    responses := s.responses ++ [okEmpty] } : State)) ∧
  (∀ s : State, s.constructed = false →
    exec .reset s = .next ({ s with responses := s.responses ++ [illegalEmpty] } : State)) ∧
  (∀ (s : State) (d : Word) (rest : List Input), s.constructed = true →
    s.inputs = .request ⟨0x02000000#32, d⟩ :: rest →
    step s = .next ({ s with h := initialVector s.variant, buf := [], len := 0, inputs := rest,
                             responses := s.responses ++ [okEmpty] } : State)) ∧
  (∀ (v : Variant) (s : State), ∃ t u w, issue [.init v] s = .next t ∧ issue [.init v, .reset] s = .next u ∧
    issue [.init v, .reset, .reset] s = .next w ∧ SameBlock t u ∧ SameBlock t w)

/-- Rules R203 and R204: on a constructed block whose buffer holds less than a block (BufferInv, a statement of its
own), WRITE n completes when n ≤ 4 and LEN + n ≤ 2^61 − 1. It appends the n bytes of DATA, first byte in bits 31..24;
the 64th byte compresses the block and the rest start the new buffer. -/
def Obligations.WriteAppendsMessageBytes : Prop :=
  ∀ (s : State) (n : BitVec 8) (data : Word),
    s.constructed = true → s.buf.length < 64 → n.toNat ≤ 4 → s.len.toNat + n.toNat ≤ 2 ^ 61 - 1 →
    exec (.write n data) s = .next
      (if s.buf.length + n.toNat < 64 then
        ({ s with
            buf := s.buf ++ (List.range n.toNat).map fun i => data.extractLsb' (24 - 8 * i) 8,
            len := BitVec.ofNat 64 (s.len.toNat + n.toNat),
            responses := s.responses ++ [okEmpty] } : State)
      else
        ({ s with
            h := compress s.h
              ((s.buf ++ (List.range n.toNat).map fun i => data.extractLsb' (24 - 8 * i) 8).take 64),
            buf := (s.buf ++ (List.range n.toNat).map fun i => data.extractLsb' (24 - 8 * i) 8).drop 64,
            len := BitVec.ofNat 64 (s.len.toNat + n.toNat),
            responses := s.responses ++ [okEmpty] } : State))

/-- Rule R204: AbsorbByte appends and counts one byte, and compresses exactly at the 64th. -/
def Obligations.AbsorbByteCompressesAtSixtyFour : Prop :=
  ∀ (s : State) (d : Byte),
    (s.buf.length = 63 →
      s.absorbByte d = ({ s with h := compress s.h (s.buf ++ [d]), buf := [], len := s.len + 1 } : State)) ∧
    (s.buf.length ≠ 63 → s.absorbByte d = ({ s with buf := s.buf ++ [d], len := s.len + 1 } : State)) ∧
    (s.buf.length ≤ 63 → (s.absorbByte d).buf.length ≤ 63)

/-- Rule R243: a legal WRITE for which LEN + n > 2^61 − 1 gives the fault LengthLimit: no response, no next state. -/
def Obligations.WriteBeyondLimitFaults : Prop :=
  ∀ (s : State) (n : BitVec 8) (data : Word),
    s.constructed = true → n.toNat ≤ 4 → 2 ^ 61 - 1 < s.len.toNat + n.toNat →
    exec (.write n data) s = .fault .lengthLimit ∧
    (∀ (d : Word) (rest : List Input), s.inputs = .request ⟨0x03#8 ++ n ++ 0x0000#16, d⟩ :: rest →
      step s = .fault .lengthLimit)

/-- Rules R240, R244, R251: from every state that meets BufferInv, a step stops only with LengthLimit, only at a
WRITE past the limit on a constructed block; and no step is ever refused. -/
def Obligations.OnlyTheLengthLimitStops : Prop :=
  (∀ (s : State) (f : Fault), BufferInv s → step s = .fault f →
    f = .lengthLimit ∧ s.constructed = true ∧
    ∃ (n : BitVec 8) (data : Word) (rest : List Input),
      s.inputs = .request ⟨0x03#8 ++ n ++ 0x0000#16, data⟩ :: rest ∧ n.toNat ≤ 4 ∧
      2 ^ 61 - 1 < s.len.toNat + n.toNat) ∧
  (∀ (s : State) (r : Refusal), step s ≠ .refused r)

/-- Rules R205, R183 and R185: on a constructed block with LEN in its range SUM completes, answers the digest words of
one or two compressions of a scratch copy, and leaves the block as it was. -/
def Obligations.SumAnswersDigestOfState : Prop :=
  ∀ s : State, s.constructed = true → s.buf.length < 64 → s.len.toNat ≤ 2 ^ 61 - 1 →
    exec .sum s = .next ({ s with responses := s.responses ++ [okWith (digestWords
      (if s.buf.length ≤ 55 then
        compress s.h (s.buf ++ [0x80#8] ++ List.replicate (55 - s.buf.length) 0x00#8 ++
          u64ToBytes (BitVec.ofNat 64 (8 * s.len.toNat)))
      else
        compress (compress s.h (s.buf ++ [0x80#8] ++ List.replicate (63 - s.buf.length) 0x00#8))
          (List.replicate 56 0x00#8 ++ u64ToBytes (BitVec.ofNat 64 (8 * s.len.toNat))))
      s.variant)] } : State)

/-- Rule R206: SIZE answers 32 or 28 by the variant alone, and changes no state. -/
def Obligations.SizeAnswersDigestSize : Prop :=
  (∀ s : State, s.constructed = true →
    exec .size s = .next ({ s with responses := s.responses ++
      [okWith [match s.variant with | .sha256 => 32#32 | .sha224 => 28#32]] } : State)) ∧
  (∀ s : State, s.constructed = false →
    exec .size s = .next ({ s with responses := s.responses ++ [illegalEmpty] } : State)) ∧
  (∀ (s : State) (d : Word) (rest : List Input), s.constructed = true →
    s.inputs = .request ⟨0x05000000#32, d⟩ :: rest →
    step s = .next ({ s with inputs := rest, responses := s.responses ++
      [okWith [match s.variant with | .sha256 => 32#32 | .sha224 => 28#32]] } : State))

/-- Rule R207: BLOCKSIZE answers 64 for both variants, changes no state, and is ILLEGAL before INIT. -/
def Obligations.BlocksizeAnswersSixtyFour : Prop :=
  (∀ s : State, s.constructed = true →
    exec .blocksize s = .next ({ s with responses := s.responses ++ [okWith [64#32]] } : State)) ∧
  (∀ s : State, s.constructed = false →
    exec .blocksize s = .next ({ s with responses := s.responses ++ [illegalEmpty] } : State)) ∧
  (∀ (s : State) (d : Word) (rest : List Input), s.constructed = true →
    s.inputs = .request ⟨0x06000000#32, d⟩ :: rest →
    step s = .next ({ s with inputs := rest, responses := s.responses ++ [okWith [64#32]] } : State))

/-- Rule R211: WRITE 0 with any DATA, SUM, SIZE and BLOCKSIZE are the identity on the block, and a second SUM, SIZE or
BLOCKSIZE directly after the same command answers the same. (LEN in its defined range, rule R23.) -/
def Obligations.IdentityCommands : Prop :=
  (∀ (s : State) (data : Word), s.constructed = true → s.len.toNat ≤ 2 ^ 61 - 1 →
    exec (.write 0 data) s = .next ({ s with responses := s.responses ++ [okEmpty] } : State)) ∧
  (∀ (s : State) (i : Instr), i = .sum ∨ i = .size ∨ i = .blocksize → s.constructed = true →
    s.len.toNat ≤ 2 ^ 61 - 1 →
    ∃ answer : Response,
      exec i s = .next ({ s with responses := s.responses ++ [answer] } : State) ∧
      exec i ({ s with responses := s.responses ++ [answer] } : State) =
        .next ({ s with responses := s.responses ++ [answer] ++ [answer] } : State))

/-- The frame of every command (rules R27, R38): what each leaves unchanged when it gives a next state. -/
def Obligations.CommandFrame : Prop :=
  ∀ (i : Instr) (s t : State), exec i s = .next t →
    t.inputs = s.inputs ∧
    (∃ answer, t.responses = s.responses ++ [answer]) ∧
    ((∀ v, i ≠ .init v) → t.constructed = s.constructed ∧ t.variant = s.variant) ∧
    ((∀ v, i ≠ .init v) → s.constructed = false → SameBlock s t) ∧
    (i = .sum ∨ i = .size ∨ i = .blocksize → SameBlock s t) ∧
    (∀ n d, i = .write n d → s.buf.length + n.toNat < 64 → t.h = s.h) ∧
    (∀ n d, i = .write n d → 4 < n.toNat → SameBlock s t)

/-! ## Laws of command sequences (43_commands.md §7) -/

/-- Rule R208: on a constructed block with room for the message, WRITES m1 then WRITES m2 leaves the H, BUF and LEN
that WRITES (m1 ++ m2) leaves, and SUM then answers the same. -/
def Obligations.IncrementalWritesEquivalent : Prop :=
  ∀ (s : State) (m1 m2 : List Byte),
    s.constructed = true → s.len.toNat + (m1 ++ m2).length ≤ 2 ^ 61 - 1 →
    ∃ t u : State,
      issue (writesOf m1 ++ writesOf m2) s = .next t ∧ issue (writesOf (m1 ++ m2)) s = .next u ∧
      t.h = u.h ∧ t.buf = u.buf ∧ t.len = u.len ∧
      ∃ (digest : List Word) (t' u' : State),
        exec .sum t = .next t' ∧ t'.responses = t.responses ++ [okWith digest] ∧
        exec .sum u = .next u' ∧ u'.responses = u.responses ++ [okWith digest]

/-- Rule R209: after INIT, WRITES m1, SUM, WRITES m2, SUM answers the digest of m1 and then that of m1 ++ m2. -/
def Obligations.MidStreamSumIsNonDestructive : Prop :=
  ∀ (s : State) (v : Variant) (m1 m2 : List Byte), (m1 ++ m2).length ≤ 2 ^ 61 - 1 →
    ∃ t : State,
      issue ([.init v] ++ writesOf m1 ++ [.sum] ++ writesOf m2 ++ [.sum]) s = .next t ∧
      t.responses = s.responses ++ [okEmpty] ++ (writesOf m1).map (fun _ => okEmpty) ++
        [okWith (messageDigest v m1)] ++ (writesOf m2).map (fun _ => okEmpty) ++
        [okWith (messageDigest v (m1 ++ m2))]

/-- Rule R210: INIT v, WRITES x, RESET, WRITES x, SUM answers what INIT v, WRITES x, SUM answers, and leaves the same
block. -/
def Obligations.ResetDiscardsTheMessage : Prop :=
  ∀ (s : State) (v : Variant) (x : List Byte), x.length ≤ 2 ^ 61 - 1 →
    ∃ t u : State,
      issue ([.init v] ++ writesOf x ++ [.reset] ++ writesOf x ++ [.sum]) s = .next t ∧
      issue ([.init v] ++ writesOf x ++ [.sum]) s = .next u ∧
      SameBlock t u ∧ t.responses.getLast? = u.responses.getLast? ∧
      u.responses.getLast? = some (okWith (messageDigest v x))

/-- Rules R83 and R212: HASH v m from ANY state answers the digest of m, and the block then holds m. -/
def Obligations.HashAnswersMessageDigest : Prop :=
  ∀ (s : State) (v : Variant) (m : List Byte), m.length ≤ 2 ^ 61 - 1 →
    ∃ t : State, issue (hashOf v m) s = .next t ∧ Holds t m ∧ t.variant = v ∧
      t.responses = s.responses ++ [okEmpty] ++ (writesOf m).map (fun _ => okEmpty) ++
        [okWith (messageDigest v m)]

/-- Rules R187 and R212, refinement: what SUM computes from H, BUF and LEN is the digest of the whole message the block
holds, padded and hashed on its own. -/
def Obligations.SumIsDigestOfHeldMessage : Prop :=
  ∀ (s : State) (m : List Byte), Holds s m →
    exec .sum s = .next
      ({ s with responses := s.responses ++ [okWith (messageDigest s.variant m)] } : State)

/-- Rule R26: each step keeps the held message in step with what was written since the last INIT or RESET. -/
def Obligations.StepTracksHeldMessage : Prop :=
  ∀ (s t : State) (m : List Byte), Holds s m → step s = .next t →
    (∀ r rest n data, s.inputs = .request r :: rest → decode r = .legal (.write n data) →
      Holds t (m ++ (List.range n.toNat).map fun i => data.extractLsb' (24 - 8 * i) 8) ∧ t.variant = s.variant) ∧
    (∀ r rest v, s.inputs = .request r :: rest → decode r = .legal (.init v) → Holds t [] ∧ t.variant = v) ∧
    (∀ r rest, s.inputs = .request r :: rest → decode r = .legal .reset → Holds t [] ∧ t.variant = s.variant) ∧
    (∀ r rest, s.inputs = .request r :: rest →
      (decode r = .legal .sum ∨ decode r = .legal .size ∨ decode r = .legal .blocksize ∨
        ∃ why, decode r = .illegal why) → Holds t m ∧ t.variant = s.variant) ∧
    (s.inputs = [] → Holds t m ∧ t.variant = s.variant)

/-! ## Invariants and whole-machine rules (10_state.md) -/

/-- Rules R22, R23 and R26: every step keeps the buffer invariant, from every state that meets it. -/
def Obligations.StepKeepsBufferInvariant : Prop :=
  ∀ s t : State, BufferInv s → step s = .next t → BufferInv t

/-- Rule R26: every step keeps "a constructed block holds some message", and such a block meets BufferInv. -/
def Obligations.StepKeepsMessageInvariant : Prop :=
  (∀ s t : State, MessageInv s → step s = .next t → MessageInv t) ∧ (∀ s : State, MessageInv s → BufferInv s)

/-- Both invariants hold right after power-on, where CONSTRUCTED = 0 and no response is pending (rule R260). -/
def Obligations.PowerOnMeetsInvariants : Prop :=
  State.reset.constructed = false ∧ State.reset.responses = [] ∧ State.reset.inputs = [] ∧
  BufferInv State.reset ∧ MessageInv State.reset

/-- Rule R24: no step changes VARIANT but a legal INIT, which sets it to its own, and a hardware reset. -/
def Obligations.OnlyInitWritesVariant : Prop :=
  ∀ s t : State, step s = .next t → t.variant ≠ s.variant →
    (∃ r rest, s.inputs = .request r :: rest ∧ decode r = .legal (.init t.variant)) ∨
    (∃ during rest, s.inputs = .hardwareReset during :: rest)

/-- Rules R25 and R214: no request clears CONSTRUCTED, a hardware reset alone does; and no request sets it but a legal
INIT. -/
def Obligations.ConstructedSetByInitClearedByHardwareReset : Prop :=
  ∀ s t : State, step s = .next t →
    (s.constructed = true → t.constructed = false → ∃ during rest, s.inputs = .hardwareReset during :: rest) ∧
    (s.constructed = false → t.constructed = true →
      ∃ r rest v, s.inputs = .request r :: rest ∧ decode r = .legal (.init v))

/-- Rule R21: only INIT, RESET and a compression during WRITE write H, all eight words at once; the compression is of
one whole 64-byte block, the buffer followed by the first bytes of the WRITE. (A hardware reset leaves H unspecified,
rule R260.) -/
def Obligations.DigestStateWritersAreAtomic : Prop :=
  ∀ (s t : State) (r : Request) (rest : List Input), s.buf.length < 64 → s.inputs = .request r :: rest →
    step s = .next t →
    t.h = s.h ∨
    (∃ v, decode r = .legal (.init v) ∧ t.h = initialVector v) ∨
    (decode r = .legal .reset ∧ t.h = initialVector s.variant) ∨
    (∃ n data, decode r = .legal (.write n data) ∧ 64 ≤ s.buf.length + n.toNat ∧
      t.h = compress s.h (s.buf ++ ((List.range n.toNat).map fun i =>
        data.extractLsb' (24 - 8 * i) 8).take (64 - s.buf.length)))

/-- Rules R70 and R76: every request that is answered is taken off the host's side and gets exactly one response, of
the form the table of rule R76 gives for it. -/
def Obligations.OneResponsePerRequest : Prop :=
  ∀ (s t : State) (r : Request) (rest : List Input), s.inputs = .request r :: rest → step s = .next t →
    t.inputs = rest ∧
    ∃ answer : Response, t.responses = s.responses ++ [answer] ∧ answer.payload.length ≤ 8 ∧
      (IllegalRequest s r.cmd → answer = illegalEmpty) ∧
      (¬ IllegalRequest s r.cmd → answer.status = .ok ∧
        answer.payload.length =
          if r.cmd = 0x04000000#32 then (match s.variant with | .sha256 => 8 | .sha224 => 7)
          else if r.cmd = 0x05000000#32 ∨ r.cmd = 0x06000000#32 then 1 else 0)

/-- Rule R251: no byte of DATA and no value of H, BUF or VARIANT makes a command ILLEGAL or faulting. Two blocks that
agree on CONSTRUCTED and LEN stop on the same requests; two that agree on CONSTRUCTED alone answer with the same status
what both answer, and what the one answers ILLEGAL so does the other. -/
def Obligations.DataNeverCausesAbnormalOutcome : Prop :=
  ∀ (s s' : State) (cmd d d' : Word) (rest rest' : List Input),
    s.constructed = s'.constructed →
    s.inputs = .request ⟨cmd, d⟩ :: rest → s'.inputs = .request ⟨cmd, d'⟩ :: rest' →
    (s.len = s'.len → ∀ f, step s = .fault f ↔ step s' = .fault f) ∧
    (∀ t t', step s = .next t → step s' = .next t' →
      t.responses.getLast?.map Response.status = t'.responses.getLast?.map Response.status) ∧
    (∀ t, step s = .next t → t.responses.getLast?.map Response.status = some .illegal →
      ∃ t', step s' = .next t' ∧ t'.responses.getLast?.map Response.status = some .illegal)

/-- Rules R57 and R36: INIT twice with the same variant, and RESET twice, leave the block that one leaves; a second
WRITE of at least one byte does not leave LEN where the first left it. -/
def Obligations.IdempotenceOfCommands : Prop :=
  (∀ (v : Variant) (s : State), ∃ t u, issue [.init v] s = .next t ∧ issue [.init v, .init v] s = .next u ∧
    SameBlock t u) ∧
  (∀ s : State, s.constructed = true → ∃ t u, issue [.reset] s = .next t ∧ issue [.reset, .reset] s = .next u ∧
    SameBlock t u) ∧
  (∀ (s : State) (n : BitVec 8) (data : Word), s.constructed = true → 1 ≤ n.toNat → n.toNat ≤ 4 →
    s.len.toNat + 2 * n.toNat ≤ 2 ^ 61 - 1 →
    ∃ t u, issue [.write n data] s = .next t ∧ issue [.write n data, .write n data] s = .next u ∧
      u.len.toNat = s.len.toNat + 2 * n.toNat ∧ t.len.toNat = s.len.toNat + n.toNat)

/-! ## Reset and instances (70_reset_and_hazards.md, 20_memory.md) -/

/-- Rules R260 and R261: a hardware reset, idle or in the middle of a request, leaves CONSTRUCTED = 0 and answers
nothing. The values of the other elements are the model's choice (notes/assumptions/1.md). -/
def Obligations.HardwareResetReturnsToPowerOn : Prop :=
  ∀ (s : State) (during : Option Request) (rest : List Input), s.inputs = .hardwareReset during :: rest →
    step s = .next ({ State.reset with inputs := rest, responses := s.responses } : State)

/-- Rule R262: until a legal INIT comes, every request, however many, is answered ILLEGAL and nothing else happens. -/
def Obligations.OnlyInitWakesTheBlock : Prop :=
  ∀ (rs : List Request) (s : State), s.constructed = false →
    (∀ r ∈ rs, ∀ v, decode r ≠ .legal (.init v)) →
    runSteps rs.length ({ s with inputs := rs.map Input.request } : State) =
      .next ({ s with inputs := [], responses := s.responses ++ List.replicate rs.length illegalEmpty } : State)

/-- Rules R36, R250 and R260, row U2: what an unconstructed block holds in VARIANT, H, BUF and LEN is never observed. Two
unconstructed blocks given the same events, hardware resets among them, answer alike for ever. So no response rests
on the values the model names for reset. -/
def Obligations.UnspecifiedValuesNeverObserved : Prop :=
  ∀ (k : Nat) (s s' : State), s.constructed = false → s'.constructed = false →
    s.inputs = s'.inputs → s.responses = s'.responses →
    ∀ t, runSteps k s = .next t →
      ∃ t', runSteps k s' = .next t' ∧ t'.responses = t.responses ∧ t'.inputs = t.inputs ∧
        t'.constructed = t.constructed ∧ (t.constructed = true → t' = t)

/-- Rule R250: between commands the block is idle and holds its state. -/
def Obligations.IdleBlockHoldsItsState : Prop :=
  ∀ s : State, s.inputs = [] → step s = .next s ∧ ∀ k, runSteps k s = .next s

/-- Rule R62: a command to one instance changes no other instance, and what it does to its own depends on that one
alone. -/
def Obligations.InstancesAreIndependent : Prop :=
  (∀ (k : Nat) (system system' : List State), stepInstance k system = .next system' →
    system'.length = system.length ∧ ∀ j, j ≠ k → system'[j]? = system[j]?) ∧
  (∀ (k : Nat) (a b a' b' : List State), a[k]? = b[k]? →
    stepInstance k a = .next a' → stepInstance k b = .next b' → a'[k]? = b'[k]?)

/-- Rule R265: the number of compressions of a command is the number of whole blocks it completes. -/
def Obligations.CompressionsPerCommand : Prop :=
  ∀ s : State, s.constructed = true → BufferInv s →
    (∀ (n : BitVec 8) (data : Word), n.toNat ≤ 4 →
      compressions (.write n data) s = (fullBlocks (s.buf ++ messageBytes n data)).length) ∧
    compressions .sum s = (fullBlocks (pad s.buf s.len.toNat)).length ∧
    (∀ v, compressions (.init v) s = 0) ∧ compressions .reset s = 0 ∧ compressions .size s = 0 ∧
    compressions .blocksize s = 0

/-! ## The codec (40_codec.md) -/

/-- Rules R51, R100, R101 and R104: every conversion is big-endian, the byte at the lowest index the most
significant. -/
def Obligations.ConversionsAreBigEndian : Prop :=
  (∀ b0 b1 b2 b3 : Byte, (bytesToWord b0 b1 b2 b3).toNat =
    b0.toNat * 2 ^ 24 + b1.toNat * 2 ^ 16 + b2.toNat * 2 ^ 8 + b3.toNat) ∧
  (∀ w : Word, (wordToBytes w).length = 4 ∧
    (wordToBytes w).foldl (fun acc b => acc * 2 ^ 8 + b.toNat) 0 = w.toNat) ∧
  (∀ x : Word64, (u64ToBytes x).length = 8 ∧
    (u64ToBytes x).foldl (fun acc b => acc * 2 ^ 8 + b.toNat) 0 = x.toNat)

/-- Rule R106: the codec laws. -/
def Obligations.CodecLaws : Prop :=
  (∀ w b0 b1 b2 b3, wordToBytes w = [b0, b1, b2, b3] → bytesToWord b0 b1 b2 b3 = w) ∧
  (∀ b0 b1 b2 b3, wordToBytes (bytesToWord b0 b1 b2 b3) = [b0, b1, b2, b3]) ∧
  (∀ block : List Byte, block.length = 64 → wordsToBytes (blockToWords block) = block)

/-- Rule R53: a WRITE of four bytes appends WordToBytes of its data word, and a block of sixteen such writes decodes
back to their data words. -/
def Obligations.FourByteWritesSpellWords : Prop :=
  (∀ w : Word, messageBytes 4 w = wordToBytes w) ∧
  (∀ ws : List Word, ws.length = 16 →
    (ws.flatMap (messageBytes 4)).length = 64 ∧ blockToWords (ws.flatMap (messageBytes 4)) = ws)

/-- Rule R105: the digest words are the state's, all eight or the first seven; 32 or 28 bytes. -/
def Obligations.DigestTruncation : Prop :=
  (∀ s : DigestState, digestWords s .sha256 = [s.h0, s.h1, s.h2, s.h3, s.h4, s.h5, s.h6, s.h7] ∧
    digestWords s .sha224 = [s.h0, s.h1, s.h2, s.h3, s.h4, s.h5, s.h6]) ∧
  (∀ (s : DigestState) (v : Variant), digestBytes s v = wordsToBytes (digestWords s v) ∧
    (digestBytes s v).length = match v with | .sha256 => 32 | .sha224 => 28)

/-! ## The compression core (41_compression.md) -/

/-- Rules R121 and R122, bit by bit: bit i of ROTR^n(x) is bit (i + n) mod 32 of x; bit i of SHR^n(x) is bit i + n of x,
and the top n bits are 0; with the rules' corner cases and examples. -/
def Obligations.RotationAndShiftBits : Prop :=
  (∀ (n : Nat) (x : Word), 0 < n → n < 32 → ∀ i, i < 32 →
    (rotr n x).getLsbD i = x.getLsbD ((i + n) % 32) ∧
    (shr n x).getLsbD i = (decide (i + n < 32) && x.getLsbD (i + n))) ∧
  (∀ n, 0 < n → n < 32 → rotr n 0xFFFFFFFF#32 = 0xFFFFFFFF#32 ∧ rotr n 0#32 = 0#32 ∧
    (shr n 0xFFFFFFFF#32).toNat = 2 ^ (32 - n) - 1) ∧
  rotr 1 0x00000001#32 = 0x80000000#32 ∧ rotr 8 0x12345678#32 = 0x78123456#32 ∧
  shr 3 0x80000000#32 = 0x10000000#32 ∧ shr 3 0xFFFFFFFF#32 = 0x1FFFFFFF#32

/-- Rules R123 and R124, bit by bit: Ch chooses y's bit where x's bit is 1 and z's where it is 0, Maj is the majority of
three; the corner cases; and the equivalent formulas rule R136 allows. -/
def Obligations.ChooseAndMajorityBits : Prop :=
  (∀ (x y z : Word) (i : Nat), i < 32 →
    (ch x y z).getLsbD i = (if x.getLsbD i then y.getLsbD i else z.getLsbD i) ∧
    (maj x y z).getLsbD i = decide (2 ≤ (x.getLsbD i).toNat + (y.getLsbD i).toNat + (z.getLsbD i).toNat)) ∧
  (∀ x y z : Word, ch x y z = (x &&& y) ||| (~~~x &&& z) ∧ maj x y z = (x &&& y) ||| (z &&& (x ||| y))) ∧
  (∀ x y z : Word, ch 0xFFFFFFFF#32 y z = y ∧ ch 0#32 y z = z ∧ maj x x z = x ∧ maj x y y = y)

/-- Rules R125 to R128, bit by bit: each sigma is the exclusive or of three rotations, or of two rotations and a shift, by
the amounts those rules give. -/
def Obligations.SigmaBits : Prop :=
  ∀ (x : Word) (i : Nat), i < 32 →
    (bigSigma0 x).getLsbD i =
      (x.getLsbD ((i + 2) % 32) ^^ x.getLsbD ((i + 13) % 32) ^^ x.getLsbD ((i + 22) % 32)) ∧
    (bigSigma1 x).getLsbD i =
      (x.getLsbD ((i + 6) % 32) ^^ x.getLsbD ((i + 11) % 32) ^^ x.getLsbD ((i + 25) % 32)) ∧
    (smallSigma0 x).getLsbD i =
      (x.getLsbD ((i + 7) % 32) ^^ x.getLsbD ((i + 18) % 32) ^^ (decide (i + 3 < 32) && x.getLsbD (i + 3))) ∧
    (smallSigma1 x).getLsbD i =
      (x.getLsbD ((i + 17) % 32) ^^ x.getLsbD ((i + 19) % 32) ^^ (decide (i + 10 < 32) && x.getLsbD (i + 10)))

/-- Rules R34 and R35: the initial vectors are the fractional bits of square roots of primes those rules name. -/
def Obligations.InitialVectorsAreSquareRootBits : Prop :=
  (∀ i < 8, IsSquareRootFraction (firstPrimes.getD i 0) ((digestWords iv256 .sha256).getD i 0).toNat) ∧
  (∀ i < 8, IsSecondSquareRootFraction (firstPrimes.getD (i + 8) 0) ((digestWords iv224 .sha256).getD i 0).toNat) ∧
  initialVector .sha256 = iv256 ∧ initialVector .sha224 = iv224

/-- Rule R129: there are 64 round constants, K[t] the first 32 bits of the fractional part of the cube root of the
(t+1)-th prime; the primes are the first 64. -/
def Obligations.RoundConstantsAreCubeRootBits : Prop :=
  firstPrimes.length = 64 ∧ (∀ p, p ∈ firstPrimes ↔ p ≤ 311 ∧ Nat.Prime p) ∧
  roundConstants.length = 64 ∧
  ∀ t < 64, IsCubeRootFraction (firstPrimes.getD t 0) (roundConstant t).toNat

/-- Rule R130: the schedule of a 64-byte block has 64 words, the block's 16 big-endian words and then the recurrence. -/
def Obligations.ScheduleRecurrence : Prop :=
  ∀ block : List Byte, block.length = 64 →
    (schedule block).length = 64 ∧
    (∀ t, t < 16 → (schedule block)[t]? =
      some (bytesToWord (block.getD (4 * t) 0) (block.getD (4 * t + 1) 0) (block.getD (4 * t + 2) 0)
        (block.getD (4 * t + 3) 0))) ∧
    (∀ t, 16 ≤ t → t < 64 → (schedule block)[t]? =
      some (smallSigma1 ((schedule block).getD (t - 2) 0) + (schedule block).getD (t - 7) 0 +
        smallSigma0 ((schedule block).getD (t - 15) 0) + (schedule block).getD (t - 16) 0)) ∧
    (block = List.replicate 64 0 → ∀ t, t < 64 → (schedule block)[t]? = some 0)

/-- Rules R131 to R134: Compress loads the working variables from the state, runs 64 rounds of the round equations, and
adds the result back. -/
def Obligations.CompressIsSixtyFourRounds : Prop :=
  ∀ (s : DigestState) (block : List Byte), block.length = 64 →
    ∃ v : Nat → Working,
      v 0 = ⟨s.h0, s.h1, s.h2, s.h3, s.h4, s.h5, s.h6, s.h7⟩ ∧
      (∀ t, t < 64 → ∃ w, (schedule block)[t]? = some w ∧ ∃ k, roundConstants[t]? = some k ∧
        ∃ t1 t2 : Word,
          t1 = (v t).h + bigSigma1 (v t).e + ch (v t).e (v t).f (v t).g + k + w ∧
          t2 = bigSigma0 (v t).a + maj (v t).a (v t).b (v t).c ∧
          v (t + 1) = { a := t1 + t2, b := (v t).a, c := (v t).b, d := (v t).c,
                        e := (v t).d + t1, f := (v t).e, g := (v t).f, h := (v t).g }) ∧
      compress s block =
        { h0 := s.h0 + (v 64).a, h1 := s.h1 + (v 64).b, h2 := s.h2 + (v 64).c, h3 := s.h3 + (v 64).d,
          h4 := s.h4 + (v 64).e, h5 := s.h5 + (v 64).f, h6 := s.h6 + (v 64).g, h7 := s.h7 + (v 64).h }

/-! ## The padding encoder (42_padding.md) -/

/-- Rules R182 and R183: one block when r ≤ 55, two when 56 ≤ r ≤ 63, with exactly the contents rule R183 gives. -/
def Obligations.PaddingBlocks : Prop :=
  (∀ (tail : List Byte) (total : Nat), tail.length ≤ 55 →
    fullBlocks (pad tail total) =
      [tail ++ [0x80#8] ++ List.replicate (55 - tail.length) 0x00#8 ++ u64ToBytes (BitVec.ofNat 64 (8 * total))]) ∧
  (∀ (tail : List Byte) (total : Nat), 56 ≤ tail.length → tail.length ≤ 63 →
    fullBlocks (pad tail total) =
      [tail ++ [0x80#8] ++ List.replicate (63 - tail.length) 0x00#8,
       List.replicate 56 0x00#8 ++ u64ToBytes (BitVec.ofNat 64 (8 * total))]) ∧
  (∀ (tail : List Byte) (total : Nat), tail.length ≤ 63 →
    ((pad tail total).length = if tail.length ≤ 55 then 64 else 128) ∧
    ∀ block ∈ fullBlocks (pad tail total), block.length = 64)

/-- Rules R181 and R184: for a total in the encoder's domain, the padded string begins with the tail and the byte 0x80, and
its last 8 bytes read, most significant first, as the exact bit length 8·L. -/
def Obligations.PaddingLengthField : Prop :=
  ∀ (tail : List Byte) (total : Nat), tail.length ≤ 63 → total ≤ 2 ^ 61 - 1 →
    (pad tail total).take (tail.length + 1) = tail ++ [0x80#8] ∧
    ((pad tail total).drop ((pad tail total).length - 8)).foldl (fun acc b => acc * 2 ^ 8 + b.toNat) 0 = 8 * total ∧
    (∀ b ∈ ((pad tail total).take ((pad tail total).length - 8)).drop (tail.length + 1), b = 0x00#8) ∧
    (pad tail total).length % 64 = 0 ∧ (pad tail total).length ≤ 128

/-! ## The notation (30_encoding.md §7) -/

/-- Rule R82: WRITES s is ⌈len(s)/4⌉ WRITE commands, each well-formed, whose message bytes in order are s. -/
def Obligations.WritesExpansion : Prop :=
  (∀ s : List Byte, (writesOf s).length = (s.length + 3) / 4 ∧
    ∀ j, j < (s.length + 3) / 4 → ∃ data : Word,
      (writesOf s)[j]? = some (.write (BitVec.ofNat 8 (min 4 (s.length - 4 * j))) data) ∧
      messageBytes (BitVec.ofNat 8 (min 4 (s.length - 4 * j))) data = (s.drop (4 * j)).take 4 ∧
      ∀ i, min 4 (s.length - 4 * j) ≤ i → i < 4 → data.extractLsb' (24 - 8 * i) 8 = 0#8) ∧
  writesOf [0x61#8, 0x62#8, 0x63#8, 0x64#8, 0x65#8] = [.write 4 0x61626364#32, .write 1 0x65000000#32]

/-- Rule R81: the lines of the command-stream notation and the requests they stand for. -/
def Obligations.AssemblerLines : Prop :=
  (Line.command (.init .sha256)).requests = [⟨0x01000000#32, 0#32⟩] ∧
  (Line.command (.init .sha224)).requests = [⟨0x01010000#32, 0#32⟩] ∧
  (Line.command .reset).requests = [⟨0x02000000#32, 0#32⟩] ∧
  (∀ (n : BitVec 8) (d : Word), (Line.command (.write n d)).requests =
    [⟨0x03000000#32 ||| (n.zeroExtend 32 <<< 16), d⟩]) ∧
  (Line.command .sum).requests = [⟨0x04000000#32, 0#32⟩] ∧
  (Line.command .size).requests = [⟨0x05000000#32, 0#32⟩] ∧
  (Line.command .blocksize).requests = [⟨0x06000000#32, 0#32⟩] ∧
  (∀ c d : Word, (Line.word c d).requests = [⟨c, d⟩])
end

