-- ==== Sys2Proof/Laws/Codec.lean ====
section
/-! SUPPORT. The lengths of what the codec makes, and its functions on a string built up from the front. -/

namespace Sys2Proof.Machine

@[simp] theorem wordToBytes_length (w : Word) : (wordToBytes w).length = 4 := rfl

@[simp] theorem u64ToBytes_length (x : Word64) : (u64ToBytes x).length = 8 := rfl

@[simp] theorem wordsToBytes_nil : wordsToBytes [] = [] := rfl

@[simp] theorem wordsToBytes_cons (w : Word) (ws : List Word) :
    wordsToBytes (w :: ws) = wordToBytes w ++ wordsToBytes ws := rfl

theorem wordsToBytes_length (ws : List Word) : (wordsToBytes ws).length = 4 * ws.length := by
  induction ws with
  | nil => rfl
  | cons w ws ih => simp [ih]; omega

@[simp] theorem blockToWords_nil : blockToWords [] = [] := rfl

@[simp] theorem blockToWords_cons (b0 b1 b2 b3 : Byte) (rest : List Byte) :
    blockToWords (b0 :: b1 :: b2 :: b3 :: rest) = bytesToWord b0 b1 b2 b3 :: blockToWords rest := rfl

theorem blockToWords_length (bytes : List Byte) : (blockToWords bytes).length = bytes.length / 4 := by
  induction bytes using blockToWords.induct with
  | case1 b0 b1 b2 b3 rest ih => simp [ih]; omega
  | case2 bytes short =>
    exact match bytes, short with
    | [], _ => rfl
    | [_], _ => by simp [blockToWords]
    | [_, _], _ => by simp [blockToWords]
    | [_, _, _], _ => by simp [blockToWords]
    | a :: b :: c :: d :: rest, short => absurd rfl (short a b c d rest)

@[simp] theorem digestWords_length (s : DigestState) (v : Variant) :
    (digestWords s v).length = match v with | .sha256 => 8 | .sha224 => 7 := by cases v <;> rfl

@[simp] theorem messageBytes_length (n : BitVec 8) (data : Word) : (messageBytes n data).length = n.toNat := by
  simp [messageBytes]

@[simp] theorem messageBytes_zero (data : Word) : messageBytes 0 data = [] := rfl

/-- Data words that agree on the first `n` bytes have the same message bytes (rule R80). -/
theorem messageBytes_congr (n : BitVec 8) (d1 d2 : Word)
    (agree : ∀ i, i < n.toNat → d1.extractLsb' (24 - 8 * i) 8 = d2.extractLsb' (24 - 8 * i) 8) :
    messageBytes n d1 = messageBytes n d2 := by
  apply List.map_congr_left
  intro i below
  exact agree i (by simpa using below)

/-- The four bytes of BytesToWord, as WRITE takes them back out. -/
theorem bytesToWord_bytes (b0 b1 b2 b3 : Byte) :
    (bytesToWord b0 b1 b2 b3).extractLsb' 24 8 = b0 ∧ (bytesToWord b0 b1 b2 b3).extractLsb' 16 8 = b1 ∧
    (bytesToWord b0 b1 b2 b3).extractLsb' 8 8 = b2 ∧ (bytesToWord b0 b1 b2 b3).extractLsb' 0 8 = b3 := by
  refine ⟨?_, ?_, ?_, ?_⟩ <;>
    (apply BitVec.eq_of_getLsbD_eq; intro i below; unfold bytesToWord; interval_cases i <;> simp)

end Sys2Proof.Machine
end

