-- ==== Sys2Proof/Laws/Assembler.lean ====
section
/-! SUPPORT. The expansion of WRITES, one command at a time. -/

namespace Sys2Proof.Machine

@[simp] theorem writesOf_nil : writesOf [] = [] := rfl

/-- The first command of the expansion takes the first four bytes, or what there is (rule R82). -/
theorem writesOf_of_ne_nil (s : List Byte) (some : s ≠ []) :
    writesOf s = writeOf (s.take 4) :: writesOf (s.drop 4) := by
  have count : (s.length + 3) / 4 = ((s.drop 4).length + 3) / 4 + 1 := by
    have := List.length_pos_of_ne_nil some
    simp; omega
  unfold writesOf
  rw [count, List.range_succ_eq_map, List.map_cons, List.map_map]
  congr 1
  apply List.map_congr_left
  intro j _
  simp [Function.comp, Nat.mul_add, List.drop_drop, Nat.add_comm]

/-- At most four bytes packed into a word come back as its message bytes (rules R80, R82). -/
theorem messageBytes_packBytes (piece : List Byte) (short : piece.length ≤ 4) :
    messageBytes (BitVec.ofNat 8 piece.length) (packBytes piece) = piece := by
  match piece, short with
  | [], _ => rfl
  | [_], _ => simp [messageBytes, messageByte, packBytes, List.range_succ, bytesToWord_bytes]
  | [_, _], _ => simp [messageBytes, messageByte, packBytes, List.range_succ, bytesToWord_bytes]
  | [_, _, _], _ => simp [messageBytes, messageByte, packBytes, List.range_succ, bytesToWord_bytes]
  | [_, _, _, _], _ => simp [messageBytes, messageByte, packBytes, List.range_succ, bytesToWord_bytes]
  | _ :: _ :: _ :: _ :: _ :: rest, short => simp at short; omega

end Sys2Proof.Machine
end

