-- ==== Sys2Proof/Laws/Compression.lean ====
section
/-! SUPPORT. The shape of the schedule and of a run of rounds. -/

namespace Sys2Proof.Machine

@[simp] theorem extendSchedule_length (k : Nat) (recent : List Word) :
    (extendSchedule k recent).length = recent.length + k := by
  induction k generalizing recent with
  | zero => rfl
  | succ k ih => simp [extendSchedule, ih]; omega

/-- Extending by one more word looks only at the words made so far. -/
theorem extendSchedule_succ (k : Nat) (recent : List Word) :
    extendSchedule (k + 1) recent =
      nextScheduleWord (extendSchedule k recent) :: extendSchedule k recent := by
  induction k generalizing recent with
  | zero => rfl
  | succ k ih => rw [extendSchedule, ih]; rfl

theorem schedule_length (block : List Byte) (full : block.length = 64) : (schedule block).length = 64 := by
  simp [schedule, blockToWords_length, full, Config.rounds]

@[simp] theorem runRounds_zero (ws : List Word) (v : Working) : runRounds 0 ws v = v := rfl

theorem runRounds_succ (n : Nat) (ws : List Word) (v : Working) :
    runRounds (n + 1) ws v = compressionRound n (runRounds n ws v) (ws.getD n 0) := by
  simp [runRounds, List.range_succ]

/-- The words already there stay where they are, counted from the oldest. -/
theorem extendSchedule_reverse_getElem? (k j : Nat) (recent : List Word) (t : Nat) (old : t < recent.length + k) :
    (extendSchedule (k + j) recent).reverse[t]? = (extendSchedule k recent).reverse[t]? := by
  induction j with
  | zero => rfl
  | succ j ih =>
    rw [← Nat.add_assoc, extendSchedule_succ, List.reverse_cons, List.getElem?_append_left (by simp; omega), ih]

end Sys2Proof.Machine
end

