-- ==== Sys2Proof/Laws/Decode.lean ====
section
/-! SUPPORT. The fields of an encoded command word, and that only the six opcodes decode. -/

namespace Sys2Proof

/-- Bit `i` of OP || ARG || RSV. -/
theorem fields_getLsbD (op arg : BitVec 8) (rsv : BitVec 16) (i : Nat) :
    BitVec.getLsbD (w := 32) (op ++ arg ++ rsv) i =
      if i < 16 then rsv.getLsbD i else if i - 16 < 8 then arg.getLsbD (i - 16) else op.getLsbD (i - 16 - 8) := by
  refine (BitVec.getLsbD_append (x := op ++ arg) (y := rsv) (i := i)).trans ?_
  rw [BitVec.getLsbD_append (x := op) (y := arg)]

/-- OP || ARG || RSV gives its OP back. -/
theorem opField_append (op arg : BitVec 8) (rsv : BitVec 16) : opField (op ++ arg ++ rsv) = op := by
  apply BitVec.eq_of_getLsbD_eq
  intro i h
  rw [opField, BitVec.getLsbD_extractLsb', fields_getLsbD, if_neg (by omega), if_neg (by omega)]
  simp [h, show 24 + i - 16 - 8 = i by omega]

/-- OP || ARG || RSV gives its ARG back. -/
theorem argField_append (op arg : BitVec 8) (rsv : BitVec 16) : argField (op ++ arg ++ rsv) = arg := by
  apply BitVec.eq_of_getLsbD_eq
  intro i h
  rw [argField, BitVec.getLsbD_extractLsb', fields_getLsbD, if_neg (by omega), if_pos (by omega)]
  simp [h]

/-- OP || ARG || RSV gives its RSV back. -/
theorem rsvField_append (op arg : BitVec 8) (rsv : BitVec 16) : rsvField (op ++ arg ++ rsv) = rsv := by
  apply BitVec.eq_of_getLsbD_eq
  intro i h
  rw [rsvField, BitVec.getLsbD_extractLsb', fields_getLsbD, if_pos (by omega)]
  simp [h]

/-- A command word is its three fields. -/
theorem fields_append (cmd : Word) : opField cmd ++ argField cmd ++ rsvField cmd = cmd := by
  apply BitVec.eq_of_getLsbD_eq (w := 32)
  intro i h
  rw [fields_getLsbD]
  by_cases low : i < 16
  · simp [rsvField, low]
  · by_cases mid : i - 16 < 8
    · simp [argField, low, mid, show 16 + (i - 16) = i by omega]
    · simp [opField, low, mid, show 24 + (i - 16 - 8) = i by omega, show i - 16 - 8 < 8 by omega]

/-- The bytes that are opcodes (rule R73). -/
theorem opcodeOf_eq_some {op : BitVec 8} {c : Opcode} (h : opcodeOf op = some c) :
    (op = 1 ∧ c = .init) ∨ (op = 2 ∧ c = .reset) ∨ (op = 3 ∧ c = .write) ∨ (op = 4 ∧ c = .sum) ∨
    (op = 5 ∧ c = .size) ∨ (op = 6 ∧ c = .blocksize) := by
  unfold opcodeOf at h
  split_ifs at h <;> simp_all

/-- The inversion lemma of the decoder: what the request of a decoded command looks like, field by field. -/
theorem decode_eq_legal {r : Request} {i : Instr} (h : decode r = .legal i) :
    i.wellFormed = true ∧ opField r.cmd = i.op ∧ argField r.cmd = i.arg ∧ rsvField r.cmd = 0x0000#16 ∧
    ∀ n d, i = .write n d → d = r.data := by
  unfold decode at h
  split at h
  · cases h
  · rename_i c opcode
    split at h
    · cases h
    · rename_i reserved
      split at h
      · cases h
      · rename_i j operands
        cases h
        obtain ⟨op, rfl⟩ | ⟨op, rfl⟩ | ⟨op, rfl⟩ | ⟨op, rfl⟩ | ⟨op, rfl⟩ | ⟨op, rfl⟩ := opcodeOf_eq_some opcode <;>
          simp only [operandsOf, variantOf, plainArg] at operands <;> split_ifs at operands <;>
          simp at operands <;> subst operands <;>
          simp_all [Instr.wellFormed, Instr.op, Instr.arg, Variant.code]

end Sys2Proof
end

