-- ==== Sys2Proof/Laws/Padding.lean ====
section
/-! SUPPORT. The number of zero bytes, the length of a padded string, and cutting a string into whole blocks. -/

namespace Sys2Proof.Machine

theorem padZeros_of_le (r : Nat) (fits : r ≤ 55) : padZeros r = 55 - r := by
  unfold padZeros; omega

theorem padZeros_of_gt (r : Nat) (spills : 56 ≤ r) (tail : r ≤ 63) : padZeros r = 119 - r := by
  unfold padZeros; omega

theorem pad_length (tail : List Byte) (total : Nat) :
    (pad tail total).length = tail.length + padZeros tail.length + 9 := by
  simp [pad]; omega

/-- A padded string is a whole number of blocks, whatever the tail (rule R181). -/
theorem pad_length_mod (tail : List Byte) (total : Nat) : (pad tail total).length % 64 = 0 := by
  rw [pad_length]; unfold padZeros; omega

@[simp] theorem fullBlocks_length (p : List Byte) : (fullBlocks p).length = p.length / 64 := by
  simp [fullBlocks, Config.blockBytes]

theorem fullBlocks_of_short (p : List Byte) (short : p.length < 64) : fullBlocks p = [] := by
  apply List.length_eq_zero_iff.mp; simp; omega

/-- The first block of a string that has one. -/
theorem fullBlocks_append (block rest : List Byte) (full : block.length = 64) :
    fullBlocks (block ++ rest) = block :: fullBlocks rest := by
  have count : (block ++ rest).length / Config.blockBytes = rest.length / Config.blockBytes + 1 := by
    simp [full, Config.blockBytes]
  rw [fullBlocks, count, List.range_succ_eq_map]
  simp only [List.map_cons, List.map_map, fullBlocks, Config.blockBytes]
  congr 1
  · simp [full]
  · apply List.map_congr_left
    intro j _
    have shift : 64 * (j + 1) = block.length + 64 * j := by omega
    simp only [Function.comp, Nat.succ_eq_add_one, shift, List.drop_append]
    rw [List.drop_of_length_le (by omega), List.nil_append, Nat.add_sub_cancel_left]

@[simp] theorem compressAll_of_short (s : DigestState) (p : List Byte) (short : p.length < 64) :
    compressAll s p = s := by simp [compressAll, fullBlocks_of_short p short]

theorem compressAll_append (s : DigestState) (block rest : List Byte) (full : block.length = 64) :
    compressAll s (block ++ rest) = compressAll (compress s block) rest := by
  simp [compressAll, fullBlocks_append block rest full]

/-- Whole blocks first, then the rest. -/
theorem compressAll_append_whole (s : DigestState) (front rest : List Byte) (whole : front.length % 64 = 0) :
    compressAll s (front ++ rest) = compressAll (compressAll s front) rest := by
  by_cases short : front.length < 64
  · obtain rfl : front = [] := List.length_eq_zero_iff.mp (by omega)
    simp
  · have cut : front = front.take 64 ++ front.drop 64 := (List.take_append_drop 64 front).symm
    have block : (front.take 64).length = 64 := by simp; omega
    have later := compressAll_append_whole (compress s (front.take 64)) (front.drop 64) rest (by simp; omega)
    rw [cut, List.append_assoc, compressAll_append s _ _ block, compressAll_append s _ _ block, later]
termination_by front.length
decreasing_by simp; omega

end Sys2Proof.Machine
end

