-- ==== Sys2Proof/Laws/State.lean ====
section
/-! SUPPORT. One lemma per field per update of the state, each true by rfl. -/

namespace Sys2Proof.Machine

variable (s : State) (st : Status) (ws : List Word) (v : Variant)

/-! ## respond -/

@[simp] theorem respond_constructed : (s.respond st ws).constructed = s.constructed := rfl
@[simp] theorem respond_variant : (s.respond st ws).variant = s.variant := rfl
@[simp] theorem respond_h : (s.respond st ws).h = s.h := rfl
@[simp] theorem respond_buf : (s.respond st ws).buf = s.buf := rfl
@[simp] theorem respond_len : (s.respond st ws).len = s.len := rfl
@[simp] theorem respond_inputs : (s.respond st ws).inputs = s.inputs := rfl
@[simp] theorem respond_responses :
    (s.respond st ws).responses = s.responses ++ [{ status := st, payload := ws }] := rfl

/-! ## answerIllegal -/

@[simp] theorem answerIllegal_constructed : s.answerIllegal.constructed = s.constructed := rfl
@[simp] theorem answerIllegal_variant : s.answerIllegal.variant = s.variant := rfl
@[simp] theorem answerIllegal_h : s.answerIllegal.h = s.h := rfl
@[simp] theorem answerIllegal_buf : s.answerIllegal.buf = s.buf := rfl
@[simp] theorem answerIllegal_len : s.answerIllegal.len = s.len := rfl
@[simp] theorem answerIllegal_inputs : s.answerIllegal.inputs = s.inputs := rfl
@[simp] theorem answerIllegal_responses :
    s.answerIllegal.responses = s.responses ++ [{ status := .illegal, payload := [] }] := rfl

/-! ## startMessage -/

@[simp] theorem startMessage_constructed : (s.startMessage v).constructed = s.constructed := rfl
@[simp] theorem startMessage_variant : (s.startMessage v).variant = s.variant := rfl
@[simp] theorem startMessage_h : (s.startMessage v).h = initialVector v := rfl
@[simp] theorem startMessage_buf : (s.startMessage v).buf = [] := rfl
@[simp] theorem startMessage_len : (s.startMessage v).len = 0 := rfl
@[simp] theorem startMessage_inputs : (s.startMessage v).inputs = s.inputs := rfl
@[simp] theorem startMessage_responses : (s.startMessage v).responses = s.responses := rfl

/-! ## hardwareReset -/

@[simp] theorem hardwareReset_constructed : s.hardwareReset.constructed = false := rfl
@[simp] theorem hardwareReset_inputs : s.hardwareReset.inputs = s.inputs := rfl
@[simp] theorem hardwareReset_responses : s.hardwareReset.responses = s.responses := rfl

/-! ## reset -/

@[simp] theorem reset_constructed : State.reset.constructed = false := rfl
@[simp] theorem reset_inputs : State.reset.inputs = [] := rfl
@[simp] theorem reset_responses : State.reset.responses = [] := rfl

end Sys2Proof.Machine
end

