-- ==== Sys2Proof/Laws/Ops.lean ====
section
/-! SUPPORT. What the shared operations can do, once each. -/

namespace Sys2Proof.Machine

@[simp] theorem requireConstructed_of_constructed (s : State) (run : Host.Outcome State Fault Refusal)
    (active : s.constructed = true) : requireConstructed s run = run := by simp [requireConstructed, active]

@[simp] theorem requireConstructed_of_unconstructed (s : State) (run : Host.Outcome State Fault Refusal)
    (idle : s.constructed = false) : requireConstructed s run = .next s.answerIllegal := by
  simp [requireConstructed, idle]

theorem hasRoom_iff (s : State) (n : Nat) : s.hasRoom n = true ↔ s.len.toNat + n ≤ 2 ^ 61 - 1 := by
  rw [State.hasRoom, Config.lengthLimit, decide_eq_true_iff]

/-! ## absorbByte and absorb -/

/-- The 64th byte compresses the block (rule R204). -/
theorem absorbByte_of_full (s : State) (d : Byte) (full : s.buf.length = 63) :
    s.absorbByte d = ({ s with h := compress s.h (s.buf ++ [d]), buf := [], len := s.len + 1 } : State) := by
  simp [State.absorbByte, full, Config.blockBytes]

/-- Any other byte is appended (rule R204). -/
theorem absorbByte_of_room (s : State) (d : Byte) (room : s.buf.length ≠ 63) :
    s.absorbByte d = ({ s with buf := s.buf ++ [d], len := s.len + 1 } : State) := by
  simp [State.absorbByte, Config.blockBytes, room]

@[simp] theorem absorb_nil (s : State) : s.absorb [] = s := rfl

@[simp] theorem absorb_cons (s : State) (d : Byte) (bytes : List Byte) :
    s.absorb (d :: bytes) = (s.absorbByte d).absorb bytes := rfl

theorem absorb_append (s : State) (xs ys : List Byte) : s.absorb (xs ++ ys) = (s.absorb xs).absorb ys := by
  simp [State.absorb]

@[simp] theorem absorbByte_frame (s : State) (d : Byte) :
    (s.absorbByte d).constructed = s.constructed ∧ (s.absorbByte d).variant = s.variant ∧
    (s.absorbByte d).inputs = s.inputs ∧ (s.absorbByte d).responses = s.responses := by
  by_cases full : s.buf.length = 63
  · simp [absorbByte_of_full s d full]
  · simp [absorbByte_of_room s d full]

/-- What absorbing leaves alone. -/
theorem absorb_frame (s : State) (bytes : List Byte) :
    (s.absorb bytes).constructed = s.constructed ∧ (s.absorb bytes).variant = s.variant ∧
    (s.absorb bytes).inputs = s.inputs ∧ (s.absorb bytes).responses = s.responses := by
  induction bytes generalizing s with
  | nil => simp
  | cons d bytes ih =>
    obtain ⟨h1, h2, h3, h4⟩ := ih (s.absorbByte d)
    simp [h1, h2, h3, h4]

@[simp] theorem absorb_constructed (s : State) (bytes : List Byte) :
    (s.absorb bytes).constructed = s.constructed := (absorb_frame s bytes).1
@[simp] theorem absorb_variant (s : State) (bytes : List Byte) :
    (s.absorb bytes).variant = s.variant := (absorb_frame s bytes).2.1
@[simp] theorem absorb_inputs (s : State) (bytes : List Byte) :
    (s.absorb bytes).inputs = s.inputs := (absorb_frame s bytes).2.2.1
@[simp] theorem absorb_responses (s : State) (bytes : List Byte) :
    (s.absorb bytes).responses = s.responses := (absorb_frame s bytes).2.2.2

/-- LEN counts every byte (rule R23). -/
theorem absorb_len (s : State) (bytes : List Byte) :
    (s.absorb bytes).len = s.len + BitVec.ofNat 64 bytes.length := by
  induction bytes generalizing s with
  | nil => simp
  | cons d bytes ih =>
    have one : (s.absorbByte d).len = s.len + 1 := by
      by_cases full : s.buf.length = 63
      · simp [absorbByte_of_full s d full]
      · simp [absorbByte_of_room s d full]
    rw [absorb_cons, ih, one, BitVec.add_assoc]
    congr 1
    apply BitVec.eq_of_toNat_eq
    simp; omega

/-- Bytes that do not fill the buffer are appended to it. -/
theorem absorb_of_room (s : State) (bytes : List Byte) (room : s.buf.length + bytes.length < 64) :
    (s.absorb bytes).h = s.h ∧ (s.absorb bytes).buf = s.buf ++ bytes := by
  induction bytes generalizing s with
  | nil => simp
  | cons d bytes ih =>
    simp only [List.length_cons] at room
    have step := absorbByte_of_room s d (by omega)
    obtain ⟨h, buf⟩ := ih (s.absorbByte d) (by simp [step]; omega)
    exact ⟨by rw [absorb_cons, h, step], by rw [absorb_cons, buf, step]; simp⟩

/-- Bytes that fill the buffer exactly compress it and leave it empty. -/
theorem absorb_of_exact (s : State) (bytes : List Byte) (room : s.buf.length < 64)
    (full : s.buf.length + bytes.length = 64) :
    (s.absorb bytes).h = compress s.h (s.buf ++ bytes) ∧ (s.absorb bytes).buf = [] := by
  obtain rfl | ⟨front, d, rfl⟩ := bytes.eq_nil_or_concat
  · simp at full; omega
  · simp only [List.concat_eq_append, List.length_append, List.length_singleton] at full
    obtain ⟨h, buf⟩ := absorb_of_room s front (by omega)
    have last := absorbByte_of_full (s.absorb front) d (by simp [buf]; omega)
    rw [List.concat_eq_append, absorb_append, absorb_cons, absorb_nil, last]
    simp [h, buf]

/-- Absorbing does not look at the host's side of the interface. -/
theorem absorb_hostSide (s : State) (ins : List Input) (outs : List Response) (bytes : List Byte) :
    ({ s with inputs := ins, responses := outs } : State).absorb bytes =
      { s.absorb bytes with inputs := ins, responses := outs } := by
  induction bytes generalizing s with
  | nil => rfl
  | cons d bytes ih =>
    have one : ({ s with inputs := ins, responses := outs } : State).absorbByte d =
        { s.absorbByte d with inputs := ins, responses := outs } := by
      unfold State.absorbByte
      simp only
      split <;> rfl
    rw [absorb_cons, absorb_cons, one, ih]

/-- Bytes that pass the 64th, but less than a block of them: one compression, and the rest start the new buffer. -/
theorem absorb_of_spill (s : State) (bytes : List Byte) (room : s.buf.length < 64)
    (full : 64 ≤ s.buf.length + bytes.length) (few : bytes.length < 64) :
    (s.absorb bytes).h = compress s.h ((s.buf ++ bytes).take 64) ∧
    (s.absorb bytes).buf = (s.buf ++ bytes).drop 64 := by
  have cut := List.take_append_drop (64 - s.buf.length) bytes
  obtain ⟨h, buf⟩ := absorb_of_exact s (bytes.take (64 - s.buf.length)) room (by simp; omega)
  obtain ⟨h', buf'⟩ := absorb_of_room (s.absorb (bytes.take (64 - s.buf.length))) (bytes.drop (64 - s.buf.length))
    (by simp [buf]; omega)
  have both := absorb_append s (bytes.take (64 - s.buf.length)) (bytes.drop (64 - s.buf.length))
  rw [cut] at both
  rw [both, h', buf', h, buf]
  exact ⟨by rw [List.take_append, List.take_of_length_le (l := s.buf) (by omega)],
    by rw [List.drop_append, List.drop_of_length_le (l := s.buf) (by omega)]⟩

end Sys2Proof.Machine
end

