-- ==== Sys2Proof/Laws/Dispatch.lean ====
section
/-! SUPPORT. Everything a command can do: when `exec i s` gives a next state, which one it is and under what conditions;
when it faults; that it never refuses. Later proofs cite `exec_next` and `exec_fault` and unfold no meaning. -/

namespace Sys2Proof.Machine

/-- The next states of the commands, one constructor per way a command can end. -/
inductive Effect (s : State) : Instr → State → Prop where
  /-- Rule R241 condition 4 and rule R242. -/
  | premature (i : Instr) (notInit : ∀ v, i ≠ .init v) (idle : s.constructed = false) : Effect s i s.answerIllegal
  /-- Rule R241 condition 3 for a count above 4. -/
  | badCount (n : BitVec 8) (data : Word) (large : 4 < n.toNat) : Effect s (.write n data) s.answerIllegal
  | init (v : Variant) : Effect s (.init v)
      (({ s.startMessage v with variant := v, constructed := true } : State).respond .ok [])
  | reset (active : s.constructed = true) : Effect s .reset ((s.startMessage s.variant).respond .ok [])
  | write (n : BitVec 8) (data : Word) (active : s.constructed = true) (small : n.toNat ≤ 4)
      (room : s.len.toNat + n.toNat ≤ 2 ^ 61 - 1) :
      Effect s (.write n data) ((s.absorb (messageBytes n data)).respond .ok [])
  | sum (active : s.constructed = true) (room : s.len.toNat ≤ 2 ^ 61 - 1) :
      Effect s .sum (s.respond .ok (finalize s.h s.buf s.len.toNat s.variant))
  | size (active : s.constructed = true) : Effect s .size (s.respond .ok [digestSizeWord s.variant])
  | blocksize (active : s.constructed = true) : Effect s .blocksize (s.respond .ok [blockSizeWord])

theorem requireConstructed_next {s t : State} {run : Host.Outcome State Fault Refusal}
    (h : requireConstructed s run = .next t) :
    (s.constructed = false ∧ t = s.answerIllegal) ∨ (s.constructed = true ∧ run = .next t) := by
  cases active : s.constructed with
  | false => rw [requireConstructed_of_unconstructed s run active] at h; cases h; exact .inl ⟨rfl, rfl⟩
  | true => rw [requireConstructed_of_constructed s run active] at h; exact .inr ⟨rfl, h⟩

theorem requireConstructed_fault {s : State} {run : Host.Outcome State Fault Refusal} {f : Fault}
    (h : requireConstructed s run = .fault f) : s.constructed = true ∧ run = .fault f := by
  cases active : s.constructed with
  | false => rw [requireConstructed_of_unconstructed s run active] at h; cases h
  | true => rw [requireConstructed_of_constructed s run active] at h; exact ⟨rfl, h⟩

theorem requireConstructed_refused {s : State} {run : Host.Outcome State Fault Refusal} {r : Refusal}
    (h : requireConstructed s run = .refused r) : run = .refused r := by
  cases active : s.constructed with
  | false => rw [requireConstructed_of_unconstructed s run active] at h; cases h
  | true => rw [requireConstructed_of_constructed s run active] at h; exact h

theorem exec_write_of_small (s : State) (n : BitVec 8) (data : Word) (small : n.toNat ≤ 4) :
    exec (.write n data) s = requireConstructed s
      (if s.hasRoom n.toNat then .next ((s.absorb (messageBytes n data)).respond .ok [])
       else .fault .lengthLimit) := if_pos small

theorem exec_write_of_large (s : State) (n : BitVec 8) (data : Word) (large : 4 < n.toNat) :
    exec (.write n data) s = .next s.answerIllegal := if_neg (by rw [Config.maxWriteBytes]; omega)

/-- The inversion lemma of `exec`. -/
theorem exec_next {i : Instr} {s t : State} (h : exec i s = .next t) : Effect s i t := by
  cases i with
  | init v => cases h; exact .init v
  | reset =>
    obtain ⟨idle, rfl⟩ | ⟨active, run⟩ := requireConstructed_next h
    · exact .premature _ (by simp) idle
    · cases run; exact .reset active
  | write n data =>
    by_cases small : n.toNat ≤ 4
    · rw [exec_write_of_small s n data small] at h
      obtain ⟨idle, rfl⟩ | ⟨active, run⟩ := requireConstructed_next h
      · exact .premature _ (by simp) idle
      · split at run
        · rename_i room; cases run; exact .write n data active small ((hasRoom_iff s _).mp room)
        · cases run
    · rw [exec_write_of_large s n data (by omega)] at h; cases h; exact .badCount n data (by omega)
  | sum =>
    obtain ⟨idle, rfl⟩ | ⟨active, run⟩ := requireConstructed_next h
    · exact .premature _ (by simp) idle
    · split at run
      · rename_i room; cases run; exact .sum active ((hasRoom_iff s 0).mp room)
      · cases run
  | size =>
    obtain ⟨idle, rfl⟩ | ⟨active, run⟩ := requireConstructed_next h
    · exact .premature _ (by simp) idle
    · cases run; exact .size active
  | blocksize =>
    obtain ⟨idle, rfl⟩ | ⟨active, run⟩ := requireConstructed_next h
    · exact .premature _ (by simp) idle
    · cases run; exact .blocksize active

/-- A command faults only past the length limit: a WRITE that would pass it, or a SUM in a state already past it. -/
theorem exec_fault {i : Instr} {s : State} {f : Fault} (h : exec i s = .fault f) :
    f = .lengthLimit ∧ s.constructed = true ∧
    ((∃ n data, i = .write n data ∧ n.toNat ≤ 4 ∧ 2 ^ 61 - 1 < s.len.toNat + n.toNat) ∨
      (i = .sum ∧ 2 ^ 61 - 1 < s.len.toNat)) := by
  cases i with
  | init v => cases h
  | reset => cases (requireConstructed_fault h).2
  | write n data =>
    by_cases small : n.toNat ≤ 4
    · rw [exec_write_of_small s n data small] at h
      obtain ⟨active, run⟩ := requireConstructed_fault h
      split at run
      · cases run
      · rename_i full
        rw [hasRoom_iff] at full
        cases run; exact ⟨rfl, active, .inl ⟨n, data, rfl, small, by omega⟩⟩
    · rw [exec_write_of_large s n data (by omega)] at h; cases h
  | sum =>
    obtain ⟨active, run⟩ := requireConstructed_fault h
    split at run
    · cases run
    · rename_i full
      rw [hasRoom_iff] at full
      cases run; exact ⟨rfl, active, .inr ⟨rfl, by omega⟩⟩
  | size => cases (requireConstructed_fault h).2
  | blocksize => cases (requireConstructed_fault h).2

/-- No command is refused: each has its meaning. -/
theorem exec_ne_refused (i : Instr) (s : State) (r : Refusal) : exec i s ≠ .refused r := by
  intro h
  cases i with
  | init v => cases h
  | reset => cases requireConstructed_refused h
  | write n data =>
    by_cases small : n.toNat ≤ 4
    · rw [exec_write_of_small s n data small] at h
      have run := requireConstructed_refused h
      split at run <;> cases run
    · rw [exec_write_of_large s n data (by omega)] at h; cases h
  | sum => have run := requireConstructed_refused h; split at run <;> cases run
  | size => cases requireConstructed_refused h
  | blocksize => cases requireConstructed_refused h

/-- On an unconstructed block every command but INIT answers ILLEGAL (rule R241 condition 4). -/
theorem exec_of_unconstructed (i : Instr) (s : State) (notInit : ∀ v, i ≠ .init v) (idle : s.constructed = false) :
    exec i s = .next s.answerIllegal := by
  cases i with
  | init v => exact absurd rfl (notInit v)
  | reset => exact requireConstructed_of_unconstructed s _ idle
  | write n data =>
    by_cases small : n.toNat ≤ 4
    · rw [exec_write_of_small s n data small]; exact requireConstructed_of_unconstructed s _ idle
    · exact exec_write_of_large s n data (by omega)
  | sum => exact requireConstructed_of_unconstructed s _ idle
  | size => exact requireConstructed_of_unconstructed s _ idle
  | blocksize => exact requireConstructed_of_unconstructed s _ idle

end Sys2Proof.Machine
end

