-- ==== Sys2Proof/Laws/PerInstr.lean ====
section
/-! SUPPORT. One statement per command about its encoding: the three fields of its command word (rules R71, R73, R74). -/

namespace Sys2Proof.Laws.Fields

/-- The command word of `i` holds its OP and its ARG in their places, and RSV = 0x0000. -/
def Statement (i : Instr) : Prop :=
  opField (encode i).cmd = i.op ∧ argField (encode i).cmd = i.arg ∧ rsvField (encode i).cmd = 0x0000#16

theorem fields_of_encode (i : Instr) : Statement i :=
  ⟨opField_append _ _ _, argField_append _ _ _, rsvField_append _ _ _⟩

theorem init (v : Variant) : Statement (.init v) := fields_of_encode _
theorem reset : Statement .reset := fields_of_encode _
theorem write (n : BitVec 8) (data : Word) : Statement (.write n data) := fields_of_encode _
theorem sum : Statement .sum := fields_of_encode _
theorem size : Statement .size := fields_of_encode _
theorem blocksize : Statement .blocksize := fields_of_encode _

end Sys2Proof.Laws.Fields
end

