-- ==== Sys2Proof/Laws/Step.lean ====
section
/-! SUPPORT. Everything a step can do, by the event it takes. -/

namespace Sys2Proof.Machine

theorem step_of_idle (s : State) (idle : s.inputs = []) : step s = .next s := by
  simp [step, stepOnce, idle]

theorem step_of_request (s : State) (r : Request) (rest : List Input) (next : s.inputs = .request r :: rest) :
    step s = execRequest r ({ s with inputs := rest } : State) := by
  simp [step, stepOnce, next, execInput]

theorem execRequest_of_malformed (r : Request) (s : State) (why : Malformed) (bad : decode r = .illegal why) :
    execRequest r s = .next s.answerIllegal := by simp [execRequest, bad]

theorem execRequest_of_legal (r : Request) (s : State) (i : Instr) (good : decode r = .legal i) :
    execRequest r s = exec i s := by simp [execRequest, good]

/-- The next states of a step, one constructor per way a step can go. -/
inductive StepEffect (s : State) : State → Prop where
  | idle (none : s.inputs = []) : StepEffect s s
  | malformed (r : Request) (rest : List Input) (why : Malformed) (next : s.inputs = .request r :: rest)
      (bad : decode r = .illegal why) : StepEffect s ({ s with inputs := rest } : State).answerIllegal
  | command (r : Request) (rest : List Input) (i : Instr) (t : State) (next : s.inputs = .request r :: rest)
      (good : decode r = .legal i) (effect : Effect ({ s with inputs := rest } : State) i t) : StepEffect s t
  | hardwareReset (during : Option Request) (rest : List Input) (next : s.inputs = .hardwareReset during :: rest) :
      StepEffect s ({ s with inputs := rest } : State).hardwareReset

/-- The inversion lemma of `step`. -/
theorem step_next {s t : State} (h : step s = .next t) : StepEffect s t := by
  match next : s.inputs with
  | [] => rw [step_of_idle s next] at h; cases h; exact .idle next
  | .request r :: rest =>
    rw [step_of_request s r rest next] at h
    match verdict : decode r with
    | .illegal why =>
      rw [execRequest_of_malformed r _ why verdict] at h; cases h; exact .malformed r rest why next verdict
    | .legal i =>
      rw [execRequest_of_legal r _ i verdict] at h; exact .command r rest i t next verdict (exec_next h)
  | .hardwareReset during :: rest =>
    simp only [step, stepOnce, next, execInput] at h; cases h; exact .hardwareReset during rest next

/-- The run of any machine of the host's interface, by the outcome of its first step. -/
theorem run_succ (M : Host.Core) (k : Nat) (s : M.State) :
    (∀ t, M.step s = .next t → M.run (k + 1) s = M.run k t) ∧
    (∀ f, M.step s = .fault f → M.run (k + 1) s = .fault f) ∧
    (∀ r, M.step s = .refused r → M.run (k + 1) s = .refused r) := by
  refine ⟨?_, ?_, ?_⟩ <;> intro x outcome <;> simp [Host.Core.run, outcome]

/-- `runSteps` is the run of the host's interface. -/
theorem run_core (k : Nat) (s : State) : Host.Core.run Sys2Proof.core k s = Sys2Proof.Safety.runSteps k s := by
  induction k generalizing s with
  | zero => rfl
  | succ k ih =>
    obtain ⟨onNext, onFault, onRefused⟩ := run_succ Sys2Proof.core k s
    unfold Sys2Proof.Safety.runSteps
    cases outcome : step s with
    | next t => exact (onNext t outcome).trans (ih t)
    | fault f => exact onFault f outcome
    | refused r => exact onRefused r outcome

end Sys2Proof.Machine
end

