-- ==== Sys2Proof/Laws/Run.lean ====
section
/-! SUPPORT. Runs of commands: a command does not look at what the host has still to send, so issuing commands one
request at a time is executing them one after another. -/

namespace Sys2Proof.Machine

open Sys2Proof.Safety

/-- `s` with `rest` still to come from the host. -/
def withInputs (rest : List Input) (s : State) : State := { s with inputs := rest }

/-- `f` on the next state of an outcome. -/
def mapNext (f : State → State) (o : Host.Outcome State Fault Refusal) : Host.Outcome State Fault Refusal :=
  match o with
  | .next t => .next (f t)
  | .fault x => .fault x
  | .refused r => .refused r

/-- The commands executed one after another, with no requests in between. -/
def runCommands : List Instr → State → Host.Outcome State Fault Refusal
  | [], s => .next s
  | i :: is, s =>
    match exec i s with
    | .next t => runCommands is t
    | .fault f => .fault f
    | .refused r => .refused r

theorem absorb_withInputs (rest : List Input) (s : State) (bytes : List Byte) :
    (withInputs rest s).absorb bytes = withInputs rest (s.absorb bytes) := by
  have whole := absorb_hostSide s rest s.responses bytes
  have same : (s.absorb bytes).responses = s.responses := absorb_responses s bytes
  rw [withInputs, withInputs]
  exact whole.trans (by rw [← same])

theorem requireConstructed_withInputs (rest : List Input) (s : State) (run run' : Host.Outcome State Fault Refusal)
    (same : run' = mapNext (withInputs rest) run) :
    requireConstructed (withInputs rest s) run' = mapNext (withInputs rest) (requireConstructed s run) := by
  cases active : s.constructed with
  | false =>
    rw [requireConstructed_of_unconstructed s run active, requireConstructed_of_unconstructed (withInputs rest s) run' active]
    rfl
  | true => rw [requireConstructed_of_constructed s run active, requireConstructed_of_constructed (withInputs rest s) run' active,
      same]

/-- A command does not look at what the host has still to send. -/
theorem exec_withInputs (rest : List Input) (i : Instr) (s : State) :
    exec i (withInputs rest s) = mapNext (withInputs rest) (exec i s) := by
  cases i with
  | init v => rfl
  | reset => exact requireConstructed_withInputs rest s _ _ rfl
  | write n data =>
    by_cases small : n.toNat ≤ 4
    · rw [exec_write_of_small s n data small, exec_write_of_small _ n data small]
      refine requireConstructed_withInputs rest s _ _ ?_
      rw [absorb_withInputs, show (withInputs rest s).hasRoom n.toNat = s.hasRoom n.toNat from rfl]
      split <;> rfl
    · rw [exec_write_of_large s n data (by omega), exec_write_of_large _ n data (by omega)]; rfl
  | sum =>
    refine requireConstructed_withInputs rest s _ _ ?_
    rw [show (withInputs rest s).hasRoom 0 = s.hasRoom 0 from rfl]
    split <;> rfl
  | size => exact requireConstructed_withInputs rest s _ _ rfl
  | blocksize => exact requireConstructed_withInputs rest s _ _ rfl

/-- Issuing commands whose requests decode back to them is executing them one after another. -/
theorem issue_eq_runCommands (is : List Instr) (s : State) (decoded : ∀ i ∈ is, decode (encode i) = .legal i) :
    issue is s = mapNext (withInputs []) (runCommands is s) := by
  unfold issue
  induction is generalizing s with
  | nil => rfl
  | cons i is ih =>
    have first : step ({ s with inputs := requests (i :: is) } : State) =
        mapNext (withInputs (requests is)) (exec i s) := by
      rw [step_of_request _ (encode i) (requests is) rfl, execRequest_of_legal _ _ _ (decoded i (by simp))]
      exact exec_withInputs (requests is) i s
    simp only [List.length_cons, runSteps, runCommands, first]
    cases exec i s with
    | next t => exact ih t fun j later => decoded j (by simp [later])
    | fault f => rfl
    | refused r => rfl

theorem runCommands_append {xs ys : List Instr} {s t : State} (first : runCommands xs s = .next t) :
    runCommands (xs ++ ys) s = runCommands ys t := by
  induction xs generalizing s with
  | nil => cases first; rfl
  | cons i xs ih =>
    simp only [List.cons_append, runCommands] at first ⊢
    cases outcome : exec i s with
    | next u => rw [outcome] at first; exact ih first
    | fault f => rw [outcome] at first; cases first
    | refused r => rw [outcome] at first; cases first

end Sys2Proof.Machine
end

