-- ==== Sys2Proof/Tests/Slice0.lean ====
section
/-! SUPPORT. The model's own tests. Every expected value comes from spec/95_test_vectors.md or from a rule of spec/, as
the test's docstring says. The last part shows, for each statement with hypotheses, a state and operands that meet
them all (`test_witness_…`), at the boundary values of its clauses. -/

namespace Sys2Proof.Tests

set_option Elab.async false

open Sys2Proof.Machine Sys2Proof.Safety

/-! ## Helpers -/

/-- The next state of an outcome, if it has one. -/
def nextOf (o : Host.Outcome State Fault Refusal) : Option State :=
  match o with
  | .next t => some t
  | .fault _ => none
  | .refused _ => none

/-- The fault of an outcome, if it is one. -/
def faultOf (o : Host.Outcome State Fault Refusal) : Option Fault :=
  match o with
  | .next _ => none
  | .fault f => some f
  | .refused _ => none

theorem eq_next {o : Host.Outcome State Fault Refusal} {t : State} (h : nextOf o = some t) : o = .next t := by
  cases o <;> simp_all [nextOf]

theorem exists_next {o : Host.Outcome State Fault Refusal} (h : (nextOf o).isSome = true) : ∃ t, o = .next t := by
  cases o <;> simp_all [nextOf]

theorem eq_fault {o : Host.Outcome State Fault Refusal} {f : Fault} (h : faultOf o = some f) : o = .fault f := by
  cases o <;> simp_all [faultOf]

/-- A constructed block that has compressed nothing yet. -/
def engine (v : Variant) (buf : List Byte) (len : Word64) : State :=
  { constructed := true, variant := v, h := initialVector v, buf := buf, len := len, inputs := [], responses := [] }

/-- `s` with one request to come. -/
def asked (s : State) (cmd data : Word) : State := { s with inputs := [.request ⟨cmd, data⟩] }

/-- The response a step on that request returns, if it gives one. -/
def answerTo (s : State) (cmd data : Word) : Option Response :=
  (nextOf (step (asked s cmd data))).bind fun t => t.responses.getLast?

/-- What the block holds after that request: CONSTRUCTED, VARIANT, H, BUF and LEN. -/
def blockAfter (s : State) (cmd data : Word) : Option (Bool × Variant × DigestState × List Byte × Word64) :=
  (nextOf (step (asked s cmd data))).map fun t => (t.constructed, t.variant, t.h, t.buf, t.len)

/-- The ASCII bytes of "abc". -/
def abc : List Byte := [0x61, 0x62, 0x63]

/-- m56 of spec/95_test_vectors.md section 5: "abcdbcde…nopq", fourteen runs of four letters. -/
def m56 : List Byte := (List.range 14).flatMap fun j => (List.range 4).map fun i => BitVec.ofNat 8 (0x61 + j + i)

/-! ## Well-formedness: a count above 4 is the one ill-formed operand (rule R74) -/

theorem test_wellFormed_refuses_large_count :
    Instr.wellFormed (.write 5 0x61000000) = false ∧ Instr.wellFormed (.write 255 0) = false := by decide

theorem test_wellFormed_accepts : Instr.wellFormed (.write 0 0) = true ∧ Instr.wellFormed (.write 4 0) = true ∧
    Instr.wellFormed (.init .sha224) = true ∧ Instr.wellFormed .reset = true ∧ Instr.wellFormed .sum = true ∧
    Instr.wellFormed .size = true ∧ Instr.wellFormed .blocksize = true := by decide

/-! ## Decoding: words written out from rules R71, R73 and R74 (OP, ARG, RSV) -/

theorem test_decode_init :
    decode ⟨0b00000001000000000000000000000000#32, 0#32⟩ = .legal (.init .sha256) ∧
    decode ⟨0b00000001000000010000000000000000#32, 0xFFFFFFFF#32⟩ = .legal (.init .sha224) := by decide

theorem test_decode_reset : decode ⟨0b00000010000000000000000000000000#32, 7#32⟩ = .legal .reset := by decide

theorem test_decode_write :
    decode ⟨0b00000011000000000000000000000000#32, 0xDEADBEEF#32⟩ = .legal (.write 0 0xDEADBEEF#32) ∧
    decode ⟨0b00000011000000010000000000000000#32, 0x61FFFFFF#32⟩ = .legal (.write 1 0x61FFFFFF#32) ∧
    decode ⟨0b00000011000000100000000000000000#32, 0x61620000#32⟩ = .legal (.write 2 0x61620000#32) ∧
    decode ⟨0b00000011000000110000000000000000#32, 0x61626300#32⟩ = .legal (.write 3 0x61626300#32) ∧
    decode ⟨0b00000011000001000000000000000000#32, 0x61626364#32⟩ = .legal (.write 4 0x61626364#32) := by decide

theorem test_decode_sum : decode ⟨0b00000100000000000000000000000000#32, 0#32⟩ = .legal .sum := by decide

theorem test_decode_size : decode ⟨0b00000101000000000000000000000000#32, 0#32⟩ = .legal .size := by decide

theorem test_decode_blocksize : decode ⟨0b00000110000000000000000000000000#32, 0#32⟩ = .legal .blocksize := by decide

/-- Vectors V15, V16, V17 to V21 and rule R79's order: OP before RSV before ARG. -/
theorem test_decode_illegal :
    decode ⟨0x00000000#32, 0#32⟩ = .illegal .opcode ∧ decode ⟨0x07000000#32, 0#32⟩ = .illegal .opcode ∧
    decode ⟨0xFF050001#32, 0#32⟩ = .illegal .opcode ∧ decode ⟨0x04000001#32, 0#32⟩ = .illegal .reserved ∧
    decode ⟨0x01058000#32, 0#32⟩ = .illegal .reserved ∧ decode ⟨0x03050000#32, 0x61000000#32⟩ = .illegal .argument ∧
    decode ⟨0x01020000#32, 0#32⟩ = .illegal .argument ∧ decode ⟨0x02010000#32, 0#32⟩ = .illegal .argument ∧
    decode ⟨0x01030000#32, 0#32⟩ = .illegal .argument := by decide

/-- Every constructor's own words, as the encoder writes them (rule R75's list). -/
theorem test_encode :
    (encode (.init .sha256)).cmd = 0x01000000#32 ∧ (encode (.init .sha224)).cmd = 0x01010000#32 ∧
    (encode .reset).cmd = 0x02000000#32 ∧ encode (.write 3 0x61626300#32) = ⟨0x03030000#32, 0x61626300#32⟩ ∧
    (encode .sum).cmd = 0x04000000#32 ∧ (encode .size).cmd = 0x05000000#32 ∧
    (encode .blocksize).cmd = 0x06000000#32 := by decide

/-- The opcode table's numbering: CMD is bits 31..0, and DATA bits 63..32 where the table gives them. -/
theorem test_decodeTableWord :
    decodeTableWord 32 0x03040000 = some (.write 4 0) ∧
    decodeTableWord 64 0x6162636403040000 = some (.write 4 0x61626364#32) ∧
    decodeTableWord 32 0x07000000 = none := by decide

/-! ## The codec (spec/95_test_vectors.md section 2) -/

theorem test_codec_words :
    bytesToWord 0x61 0x62 0x63 0x80 = 0x61626380#32 ∧ bytesToWord 0x01 0x02 0x03 0x04 = 0x01020304#32 ∧
    wordToBytes 0xba7816bf#32 = [0xba, 0x78, 0x16, 0xbf] ∧ wordsToBytes [0x00000020#32] = [0, 0, 0, 0x20] := by
  decide

theorem test_codec_lengths_and_digest :
    u64ToBytes 448 = [0, 0, 0, 0, 0, 0, 0x01, 0xc0] ∧
    u64ToBytes (BitVec.ofNat 64 (2 ^ 64 - 8)) = [0xff, 0xff, 0xff, 0xff, 0xff, 0xff, 0xff, 0xf8] ∧
    (digestWords iv224 .sha224).length = 7 ∧ (digestWords iv224 .sha224).getLast? = some 0x64f98fa7#32 ∧
    (blockToWords (pad abc 3)).head? = some 0x61626380#32 ∧
    (blockToWords (pad abc 3)).getLast? = some 0x00000018#32 := by decide +kernel

/-! ## The compression core (sections 3, 4 and 5) -/

theorem test_sigmas :
    bigSigma0 0x12345678#32 = 0x66146474#32 ∧ bigSigma1 0x12345678#32 = 0x3561abda#32 ∧
    smallSigma0 0x12345678#32 = 0xe7fce6ee#32 ∧ smallSigma1 0x12345678#32 = 0xa1f78649#32 ∧
    bigSigma1 0x510e527f#32 = 0x3587272b#32 ∧ smallSigma0 0xffffffff#32 = 0x1fffffff#32 := by decide

theorem test_ch_and_maj :
    ch 0xf0f0f0f0#32 0xcccccccc#32 0xaaaaaaaa#32 = 0xcacacaca#32 ∧
    maj 0xf0f0f0f0#32 0xcccccccc#32 0xaaaaaaaa#32 = 0xe8e8e8e8#32 ∧
    ch 0x510e527f#32 0x9b05688c#32 0x1f83d9ab#32 = 0x1f85c98c#32 ∧
    maj 0x6a09e667#32 0xbb67ae85#32 0x3c6ef372#32 = 0x3a6fe667#32 := by decide

theorem test_schedule_of_abc :
    (schedule (pad abc 3))[16]? = some 0x61626380#32 ∧ (schedule (pad abc 3))[17]? = some 0x000f0000#32 ∧
    (schedule (pad abc 3))[18]? = some 0x7da86405#32 ∧ (schedule (pad abc 3))[63]? = some 0x12b1edeb#32 := by
  decide +kernel

theorem test_round_trace_of_abc :
    roundT1 0 (loadWorking iv256) 0x61626380#32 = 0x54da50e8#32 ∧ roundT2 (loadWorking iv256) = 0x08909ae5#32 ∧
    compressionRound 0 (loadWorking iv256) 0x61626380#32 =
      ⟨0x5d6aebcd#32, 0x6a09e667#32, 0xbb67ae85#32, 0x3c6ef372#32,
       0xfa2a4622#32, 0x510e527f#32, 0x9b05688c#32, 0x1f83d9ab#32⟩ := by decide +kernel

theorem test_compress_abc :
    compress iv256 (pad abc 3) =
      ⟨0xba7816bf#32, 0x8f01cfea#32, 0x414140de#32, 0x5dae2223#32,
       0xb00361a3#32, 0x96177a9c#32, 0xb410ff61#32, 0xf20015ad#32⟩ := by decide +kernel

theorem test_finalize_two_blocks :
    finalize iv256 m56 56 .sha256 =
      [0x248d6a61#32, 0xd20638b8#32, 0xe5c02693#32, 0x0c3e6039#32,
       0xa33ce459#32, 0x64ff2167#32, 0xf6ecedd4#32, 0x19db06c1#32] := by decide +kernel

/-! ## The padding (section 6), and the length field at the limit: 8·(2^61 − 1) = 2^64 − 8 -/

theorem test_padding_lengths :
    ([0, 3, 55, 56, 57, 63].map fun r => (pad (List.replicate r 0x61) r).length) = [64, 64, 64, 128, 128, 128] ∧
    ([0, 3, 55, 56, 57, 63].map padZeros) = [55, 52, 0, 63, 62, 56] := by decide +kernel

theorem test_padding_length_field :
    (pad [] 64).drop 56 = [0, 0, 0, 0, 0, 0, 0x02, 0x00] ∧
    (pad m56 56).drop 120 = [0, 0, 0, 0, 0, 0, 0x01, 0xc0] ∧
    (pad [] (2 ^ 61 - 1)).drop 56 = [0xff, 0xff, 0xff, 0xff, 0xff, 0xff, 0xff, 0xf8] := by decide +kernel

/-! ## The constants, against the first and the last root (section 3) -/

theorem test_constants :
    roundConstants.length = 64 ∧ roundConstant 0 = 0x428a2f98#32 ∧ roundConstant 63 = 0xc67178f2#32 ∧
    firstPrimes.head? = some 2 ∧ firstPrimes.getLast? = some 311 := by decide +kernel

/-! ## Single steps: two a command at most (section 7) -/

/-- V1 and V2: INIT from power-on, through `withFetchWord`. -/
theorem test_step_init_from_power_on :
    nextOf (step (State.reset.withFetchWord 32 0x01010000)) = some
      { constructed := true, variant := .sha224, h := iv224, buf := [], len := 0, inputs := [],
        responses := [okEmpty] } := by decide +kernel

/-- V3: INIT switches the variant of a block in use. -/
theorem test_step_init_switches_variant :
    blockAfter (engine .sha224 [1, 2, 3, 4, 5] 5) 0x01000000#32 0#32 = some (true, .sha256, iv256, [], 0) := by
  decide +kernel

/-- V4: RESET keeps VARIANT. -/
theorem test_step_reset :
    blockAfter ({ engine .sha224 abc 67 with h := iv256 } : State) 0x02000000#32 0#32 =
      some (true, .sha224, iv224, [], 0) := by decide +kernel

/-- Rule R241 condition 4: RESET does not construct. -/
theorem test_step_reset_before_init :
    nextOf (step (asked State.reset 0x02000000#32 0#32)) =
      some ({ State.reset with responses := [illegalEmpty] } : State) := by decide +kernel

/-- V5: the fourth byte of DATA is not read. -/
theorem test_step_write_three_bytes :
    blockAfter (engine .sha256 [] 0) 0x03030000#32 0x616263FF#32 = some (true, .sha256, iv256, abc, 3) := by
  decide +kernel

/-- V7: the 64th byte falls in the middle of the WRITE. -/
theorem test_step_write_across_a_block :
    blockAfter (engine .sha256 (List.replicate 62 0) 62) 0x03030000#32 0x616263FF#32 =
      some (true, .sha256,
        ⟨0xe8401e39#32, 0x5d8a3dc5#32, 0x7662c31e#32, 0xf16526e1#32,
         0x75ca6024#32, 0xc52f4bf5#32, 0x87199aa2#32, 0xf42923d5#32⟩, [0x63], 65) := by decide +kernel

/-- V9: SHA-224 of the empty message, seven words. -/
theorem test_step_sum_empty_sha224 :
    answerTo (engine .sha224 [] 0) 0x04000000#32 0#32 = some (okWith
      [0xd14a028c#32, 0x2a3a2bc9#32, 0x476102bb#32, 0x288234c4#32, 0x15a2b01f#32, 0x828ea62a#32, 0xc5b3e42f#32]) := by
  decide +kernel

/-- S2 and program P1: SHA-256 of "abc"; the block is as it was. -/
theorem test_step_sum_abc :
    answerTo (engine .sha256 abc 3) 0x04000000#32 0#32 = some (okWith
      [0xba7816bf#32, 0x8f01cfea#32, 0x414140de#32, 0x5dae2223#32,
       0xb00361a3#32, 0x96177a9c#32, 0xb410ff61#32, 0xf20015ad#32]) ∧
    blockAfter (engine .sha256 abc 3) 0x04000000#32 0#32 = some (true, .sha256, iv256, abc, 3) := by decide +kernel

/-- V10 and V11. -/
theorem test_step_size :
    answerTo (engine .sha256 abc 3) 0x05000000#32 0#32 = some (okWith [0x00000020#32]) ∧
    answerTo (engine .sha224 [] 0) 0x05000000#32 0#32 = some (okWith [0x0000001c#32]) := by decide +kernel

/-- V12. -/
theorem test_step_blocksize :
    answerTo (engine .sha224 abc 3) 0x06000000#32 0#32 = some (okWith [0x00000040#32]) := by decide +kernel

/-- V14: BLOCKSIZE before INIT. -/
theorem test_step_blocksize_before_init :
    answerTo State.reset 0x06000000#32 0#32 = some illegalEmpty := by decide +kernel

/-- V18: an ILLEGAL WRITE absorbs no byte. -/
theorem test_step_illegal_absorbs_nothing :
    answerTo (engine .sha256 abc 3) 0x03050000#32 0x61000000#32 = some illegalEmpty ∧
    blockAfter (engine .sha256 abc 3) 0x03050000#32 0x61000000#32 = some (true, .sha256, iv256, abc, 3) := by
  decide +kernel

/-- V22 and V23: the length limit, past it and on it. -/
theorem test_step_length_limit :
    faultOf (step (asked (engine .sha256 (List.replicate 62 0) (BitVec.ofNat 64 (2 ^ 61 - 2))) 0x03020000#32 0#32)) =
      some .lengthLimit ∧
    (blockAfter (engine .sha256 (List.replicate 62 0) (BitVec.ofNat 64 (2 ^ 61 - 2))) 0x03010000#32 0#32).map
      (fun block => block.2.2.2.2.toNat) = some (2 ^ 61 - 1) := by decide +kernel

/-- Rules R260 and R261: a hardware reset in the middle of a WRITE answers nothing and unconstructs the block. -/
theorem test_step_hardware_reset :
    (nextOf (step ({ engine .sha256 abc 3 with
        inputs := [.hardwareReset (some ⟨0x03010000#32, 0x61000000#32⟩)] } : State))).map
      (fun t => (t.constructed, t.responses, t.inputs)) = some (false, [], []) := by decide +kernel

/-- Rule R77's status codes, and the byte form of a payload (rule R76). -/
theorem test_response_form : Status.ok.code = 0 ∧ Status.illegal.code = 1 ∧
    (okWith [0x00000020#32]).bytes = [0, 0, 0, 0x20] ∧ illegalEmpty.bytes = [] := by decide

/-! ## The notation (rules R81, R82) -/

theorem test_writesOf : writesOf [0x61, 0x62, 0x63, 0x64, 0x65] = [.write 4 0x61626364#32, .write 1 0x65000000#32] ∧
    writesOf [] = [] := by decide +kernel

theorem test_parseLine :
    parseLine ['I', 'n', 'i', 't', ' ', 's', 'h', 'a', '2', '2', '4', ' ', ';', 'x'] =
      some (.command (.init .sha224)) ∧
    parseLine ['W', 'R', 'I', 'T', 'E', ' ', '3', ',', ' ', '0', 'x', '6', '1', '6', '2', '6', '3', 'F', 'f'] =
      some (.command (.write 3 0x616263FF#32)) ∧
    parseLine ['W', 'R', 'I', 'T', 'E', ' ', '5', ',', ' ', '0', 'x', '6', '1', '6', '2', '6', '3', 'F', 'f'] =
      none := by decide +kernel

/-- Program P5, step 2: the bare 0 of `.word`; only its second operand has that form. -/
theorem test_parseLine_word :
    parseLine ['.', 'w', 'o', 'r', 'd', ' ', '0', 'x', '0', '7', '0', '0', '0', '0', '0', '0', ',', ' ', '0'] =
      some (.word 0x07000000#32 0x00000000#32) ∧
    parseLine ['.', 'w', 'o', 'r', 'd', ' ', '0', ',', ' ', '0'] = none := by decide +kernel

/-- The example of rule R82; and the model's choices of notes/assumptions/12.md: a semicolon in HASH's quoted text is a
byte of it, and a comment hides a quotation mark. -/
theorem test_parseLine_quoted :
    parseLine ['W', 'R', 'I', 'T', 'E', 'S', ' ', quoteMark, 'a', 'b', 'c', 'd', 'e', quoteMark, ';'] =
      some (.writes [0x61, 0x62, 0x63, 0x64, 0x65]) ∧
    parseLine ['H', 'A', 'S', 'H', ' ', 's', 'h', 'a', '2', '5', '6', ',', ' ', quoteMark, 'A', ';', quoteMark] =
      some (.hash .sha256 [0x41, 0x3b]) ∧
    parseLine ['S', 'U', 'M', ' ', ';', quoteMark] = some (.command .sum) := by decide +kernel

/-! ## Witnesses: each statement's hypotheses are met together -/

/-- StepExecutesDecodedRequest. -/
theorem test_witness_step_executes :
    (asked (engine .sha256 abc 3) 0x04000000#32 0#32).inputs = .request ⟨0x04000000#32, 0#32⟩ :: [] ∧
    decode ⟨0x04000000#32, 0#32⟩ = .legal .sum := by decide

/-- DecodeEncodeRoundTrip: both ends of WRITE's count, and a decoded request. -/
theorem test_witness_round_trip :
    Instr.wellFormed (.write 0 0xFFFFFFFF#32) = true ∧ Instr.wellFormed (.write 4 1#32) = true ∧
    decode ⟨0x03040000#32, 1#32⟩ = .legal (.write 4 1#32) := by decide

/-- ExactlyElevenLegalWords: the words beside the legal ones are outside the list. -/
theorem test_witness_eleven_words :
    (0x01020000#32 ∉ legalWords ∧ 0x03050000#32 ∉ legalWords ∧ 0x04000001#32 ∉ legalWords ∧
      0x00000000#32 ∉ legalWords) ∧
    (asked State.reset 0x03050000#32 0#32).inputs = [.request ⟨0x03050000#32, 0#32⟩] := by decide

/-- OnlyMessageBytesOfDataAreRead: WRITE 3 with two data words that differ in the last byte; a SUM with any two. -/
theorem test_witness_data_bytes :
    (∀ i, i < ((0x03030000#32 : Word).extractLsb' 16 8).toNat →
      (0x61626300#32 : Word).extractLsb' (24 - 8 * i) 8 = (0x616263FF#32 : Word).extractLsb' (24 - 8 * i) 8) ∧
    (0x03030000#32 : Word).extractLsb' 24 8 = 0x03#8 ∧ (0x04000000#32 : Word).extractLsb' 24 8 ≠ 0x03#8 := by
  decide

/-- IllegalRequestOnlyAnswers: each of the four conditions, and a legal request that is answered. -/
theorem test_witness_illegal :
    MalformedWord 0x07000000#32 ∧ MalformedWord 0x04000001#32 ∧ MalformedWord 0x03050000#32 ∧
    (State.reset.constructed = false ∧ ((0x04000000#32 : Word).extractLsb' 24 8).toNat ≠ 1) ∧
    ¬ IllegalRequest (engine .sha256 abc 3) 0x05000000#32 ∧
    ∃ t, step (asked (engine .sha256 abc 3) 0x05000000#32 0#32) = .next t :=
  ⟨by unfold MalformedWord; decide, by unfold MalformedWord; decide, by unfold MalformedWord; decide, by decide,
   by unfold IllegalRequest MalformedWord; decide, exists_next (by decide +kernel)⟩

/-- InitConstructsFreshEngine. -/
theorem test_witness_init :
    (asked (engine .sha256 abc 3) 0x01010000#32 5#32).inputs = [.request ⟨0x01010000#32, 5#32⟩] ∧
    (asked State.reset 0x01000000#32 5#32).inputs = [.request ⟨0x01000000#32, 5#32⟩] := by decide

/-- ResetRestoresPostConstructState, SizeAnswersDigestSize and BlocksizeAnswersSixtyFour: a block of each kind with each
of their requests to come. -/
theorem test_witness_constructed_and_not :
    (engine .sha224 abc 3).constructed = true ∧ State.reset.constructed = false ∧
    (asked (engine .sha224 abc 3) 0x02000000#32 0#32).inputs = [.request ⟨0x02000000#32, 0#32⟩] ∧
    (asked (engine .sha224 abc 3) 0x05000000#32 0#32).inputs = [.request ⟨0x05000000#32, 0#32⟩] ∧
    (asked (engine .sha224 abc 3) 0x06000000#32 0#32).inputs = [.request ⟨0x06000000#32, 0#32⟩] ∧
    (asked (engine .sha224 abc 3) 0x02000000#32 0#32).constructed = true := by decide

/-- WriteAppendsMessageBytes and AbsorbByteCompressesAtSixtyFour: a block one byte short of full, on the last length
that is in range, for WRITE 0 and WRITE 4, on either side of the 64th byte. -/
theorem test_witness_write :
    (let s := engine .sha256 (List.replicate 63 0) (BitVec.ofNat 64 (2 ^ 61 - 1))
     s.constructed = true ∧ s.buf.length < 64 ∧ (0 : BitVec 8).toNat ≤ 4 ∧
       s.len.toNat + (0 : BitVec 8).toNat ≤ 2 ^ 61 - 1 ∧ s.buf.length + (0 : BitVec 8).toNat < 64 ∧
       s.buf.length = 63) ∧
    (let s := engine .sha256 (List.replicate 60 0) (BitVec.ofNat 64 (2 ^ 61 - 5))
     s.constructed = true ∧ s.buf.length < 64 ∧ (4 : BitVec 8).toNat ≤ 4 ∧
       s.len.toNat + (4 : BitVec 8).toNat ≤ 2 ^ 61 - 1 ∧ ¬ s.buf.length + (4 : BitVec 8).toNat < 64 ∧
       s.buf.length ≠ 63 ∧ s.buf.length ≤ 63) := by decide +kernel

/-- WriteBeyondLimitFaults: one byte past the limit. -/
theorem test_witness_write_beyond :
    let s := asked (engine .sha256 [] (BitVec.ofNat 64 (2 ^ 61 - 1))) 0x03010000#32 0#32
    s.constructed = true ∧ (1 : BitVec 8).toNat ≤ 4 ∧ 2 ^ 61 - 1 < s.len.toNat + (1 : BitVec 8).toNat ∧
    s.inputs = .request ⟨0x03#8 ++ (1 : BitVec 8) ++ 0x0000#16, 0#32⟩ :: [] := by decide +kernel

/-- OnlyTheLengthLimitStops: a state that meets BufferInv and faults. -/
theorem test_witness_length_limit_stops :
    let s := asked (engine .sha256 (List.replicate 63 0) (BitVec.ofNat 64 (2 ^ 61 - 1))) 0x03010000#32 0#32
    BufferInv s ∧ step s = .fault .lengthLimit :=
  ⟨fun _ => by decide +kernel, eq_fault (by decide +kernel)⟩

/-- SumAnswersDigestOfState: 55 and 56 buffered bytes, LEN at the limit. -/
theorem test_witness_sum :
    (let s := engine .sha224 (List.replicate 55 0) (BitVec.ofNat 64 (2 ^ 61 - 1))
     s.constructed = true ∧ s.buf.length < 64 ∧ s.len.toNat ≤ 2 ^ 61 - 1 ∧ s.buf.length ≤ 55) ∧
    (let s := engine .sha256 m56 56
     s.constructed = true ∧ s.buf.length < 64 ∧ s.len.toNat ≤ 2 ^ 61 - 1 ∧ ¬ s.buf.length ≤ 55) := by decide +kernel

/-- IdentityCommands, at LEN = 2^61 − 1. -/
theorem test_witness_identity :
    let s := engine .sha256 [] (BitVec.ofNat 64 (2 ^ 61 - 1))
    s.constructed = true ∧ s.len.toNat ≤ 2 ^ 61 - 1 ∧
    (Instr.sum = .sum ∨ Instr.sum = .size ∨ Instr.sum = .blocksize) := by decide +kernel

/-- CommandFrame: each kind of clause has a command that completes (an unconstructed block, a full and a partial WRITE,
a count above 4). -/
theorem test_witness_frame :
    (∃ t, exec .sum State.reset = .next t) ∧ (∃ t, exec .size (engine .sha256 abc 3) = .next t) ∧
    (∃ t, exec (.write 1 0) (engine .sha256 (List.replicate 62 0) 62) = .next t) ∧
    ((engine .sha256 (List.replicate 62 0) 62).buf.length + (1 : BitVec 8).toNat < 64) ∧
    (∃ t, exec (.write 5 0) (engine .sha256 abc 3) = .next t) ∧ 4 < (5 : BitVec 8).toNat :=
  ⟨exists_next (by decide +kernel), exists_next (by decide +kernel), exists_next (by decide +kernel), by decide,
   exists_next (by decide +kernel), by decide⟩

/-- IncrementalWritesEquivalent: two pieces that end exactly on the limit. -/
theorem test_witness_incremental :
    let s := engine .sha256 (List.replicate 62 0) (BitVec.ofNat 64 (2 ^ 61 - 6))
    s.constructed = true ∧ s.len.toNat + ([1, 2, 3] ++ [4, 5] : List Byte).length ≤ 2 ^ 61 - 1 := by decide +kernel

/-- MidStreamSumIsNonDestructive, ResetDiscardsTheMessage and HashAnswersMessageDigest: messages within the limit. -/
theorem test_witness_messages :
    (abc ++ m56).length ≤ 2 ^ 61 - 1 ∧ m56.length ≤ 2 ^ 61 - 1 ∧ ([] : List Byte).length ≤ 2 ^ 61 - 1 := by
  decide +kernel

/-- SumIsDigestOfHeldMessage: blocks that hold the empty message, "abc", and 65 bytes (one block compressed). -/
theorem test_witness_holds :
    Holds (engine .sha224 [] 0) [] ∧ Holds (engine .sha256 abc 3) abc ∧
    Holds ({ engine .sha256 [0x61] 65 with h := compress iv256 (List.replicate 64 0x61) } : State)
      (List.replicate 65 0x61) := by
  refine ⟨?_, ?_, ?_⟩ <;> exact ⟨by decide +kernel, by decide +kernel, by decide +kernel, by decide +kernel, by decide +kernel⟩

/-- The block that holds "abc" with one request to come still holds it. -/
theorem holds_abc (cmd data : Word) : Holds (asked (engine .sha256 abc 3) cmd data) abc := test_witness_holds.2.1

/-- StepTracksHeldMessage: a step of each kind from a block that holds "abc". -/
theorem test_witness_tracks :
    (∀ cmd data, Holds (asked (engine .sha256 abc 3) cmd data) abc) ∧ Holds (engine .sha256 abc 3) abc ∧
    (∃ t, step (asked (engine .sha256 abc 3) 0x03040000#32 0x61626364#32) = .next t) ∧
    (∃ t, step (asked (engine .sha256 abc 3) 0x01010000#32 0#32) = .next t) ∧
    (∃ t, step (asked (engine .sha256 abc 3) 0x02000000#32 0#32) = .next t) ∧
    (∃ t, step (asked (engine .sha256 abc 3) 0x04000000#32 0#32) = .next t) ∧
    (∃ t, step (asked (engine .sha256 abc 3) 0x07000000#32 0#32) = .next t) ∧
    (∃ t, step (engine .sha256 abc 3) = .next t) :=
  ⟨holds_abc, test_witness_holds.2.1, exists_next (by decide +kernel), exists_next (by decide +kernel),
   exists_next (by decide +kernel), exists_next (by decide +kernel), exists_next (by decide +kernel),
   exists_next (by decide +kernel)⟩

/-- StepKeepsBufferInvariant, DigestStateWritersAreAtomic and OneResponsePerRequest: a block one byte short of full and
a WRITE that passes it. -/
theorem test_witness_buffer_invariant :
    let s := asked (engine .sha256 (List.replicate 63 0) 63) 0x03020000#32 0#32
    BufferInv s ∧ s.buf.length < 64 ∧ s.inputs = [.request ⟨0x03020000#32, 0#32⟩] ∧ ∃ t, step s = .next t :=
  ⟨fun _ => by decide +kernel, by decide +kernel, by decide, exists_next (by decide +kernel)⟩

/-- StepKeepsMessageInvariant. -/
theorem test_witness_message_invariant :
    MessageInv (asked (engine .sha256 abc 3) 0x03040000#32 0x61626364#32) ∧
    ∃ t, step (asked (engine .sha256 abc 3) 0x03040000#32 0x61626364#32) = .next t :=
  ⟨fun _ => ⟨abc, holds_abc _ _⟩, exists_next (by decide +kernel)⟩

/-- OnlyInitWritesVariant: an INIT that switches the variant. -/
theorem test_witness_variant :
    ∃ t, step (asked (engine .sha256 abc 3) 0x01010000#32 0#32) = .next t ∧
      t.variant ≠ (asked (engine .sha256 abc 3) 0x01010000#32 0#32).variant :=
  ⟨{ constructed := true, variant := .sha224, h := iv224, buf := [], len := 0, inputs := [], responses := [okEmpty] },
   eq_next (by decide +kernel), by decide⟩

/-- ConstructedSetByInitClearedByHardwareReset: both directions happen. -/
theorem test_witness_constructed :
    (∃ t, step (asked State.reset 0x01010000#32 0#32) = .next t ∧ t.constructed = true) ∧
    (∃ t, step ({ engine .sha256 abc 3 with inputs := [.hardwareReset none] } : State) = .next t ∧
      t.constructed = false) :=
  ⟨⟨{ constructed := true, variant := .sha224, h := iv224, buf := [], len := 0, inputs := [], responses := [okEmpty] },
    eq_next (by decide +kernel), rfl⟩, ⟨State.reset, eq_next (by decide +kernel), rfl⟩⟩

/-- DataNeverCausesAbnormalOutcome: two blocks that differ in VARIANT, BUF and DATA, with the same LEN and a fault, with
other LENs and an answer each, and with other LENs and an ILLEGAL answer. -/
theorem test_witness_data :
    (let s := asked (engine .sha256 [] (BitVec.ofNat 64 (2 ^ 61 - 1))) 0x03010000#32 0#32
     let s' := asked (engine .sha224 abc (BitVec.ofNat 64 (2 ^ 61 - 1))) 0x03010000#32 0xFFFFFFFF#32
     s.constructed = s'.constructed ∧ s.len = s'.len ∧ step s = .fault .lengthLimit) ∧
    (let s := asked (engine .sha256 [] 64) 0x03010000#32 0#32
     let s' := asked (engine .sha224 abc 3) 0x03010000#32 0xFFFFFFFF#32
     s.constructed = s'.constructed ∧ s.len ≠ s'.len ∧ (∃ t, step s = .next t) ∧ ∃ t, step s' = .next t) ∧
    (let s := asked (engine .sha256 [] 64) 0x03050000#32 0#32
     let s' := asked (engine .sha224 abc 3) 0x03050000#32 0#32
     s.constructed = s'.constructed ∧ s.len ≠ s'.len ∧
       ∃ t, step s = .next t ∧ t.responses.getLast?.map Response.status = some .illegal) :=
  ⟨⟨by decide, by decide, eq_fault (by decide +kernel)⟩,
   ⟨by decide, by decide, exists_next (by decide +kernel), exists_next (by decide +kernel)⟩,
   ⟨by decide, by decide, { engine .sha256 [] 64 with responses := [illegalEmpty] }, eq_next (by decide +kernel), rfl⟩⟩

/-- IdempotenceOfCommands: WRITE 1 and WRITE 4 twice, the latter ending on the limit. -/
theorem test_witness_idempotence :
    (engine .sha256 abc 3).constructed = true ∧ 1 ≤ (1 : BitVec 8).toNat ∧ 1 ≤ (4 : BitVec 8).toNat ∧
    (4 : BitVec 8).toNat ≤ 4 ∧
    (engine .sha256 [] (BitVec.ofNat 64 (2 ^ 61 - 9))).len.toNat + 2 * (4 : BitVec 8).toNat ≤ 2 ^ 61 - 1 := by
  decide +kernel

/-- HardwareResetReturnsToPowerOn: idle, and during a request. -/
theorem test_witness_hardware_reset :
    ({ engine .sha256 abc 3 with inputs := [.hardwareReset none] } : State).inputs = .hardwareReset none :: [] ∧
    ({ engine .sha256 abc 3 with inputs := [.hardwareReset (some ⟨0x03010000#32, 0#32⟩)] } : State).inputs =
      .hardwareReset (some ⟨0x03010000#32, 0#32⟩) :: [] := by decide

/-- OnlyInitWakesTheBlock: two requests, neither a legal INIT. -/
theorem test_witness_only_init_wakes :
    State.reset.constructed = false ∧
    ∀ r ∈ [(⟨0x04000000#32, 0#32⟩ : Request), ⟨0x01030000#32, 0#32⟩], ∀ v, decode r ≠ .legal (.init v) := by
  refine ⟨rfl, ?_⟩
  intro r member v
  cases v <;> revert r <;> decide

/-- UnspecifiedValuesNeverObserved: two unconstructed blocks with other contents, and two steps that construct and hash. -/
theorem test_witness_unspecified :
    let s : State := { State.reset with inputs := [.request ⟨0x01000000#32, 0#32⟩, .request ⟨0x04000000#32, 0#32⟩] }
    let s' : State := { s with variant := .sha224, h := iv224, buf := abc, len := 3 }
    s.constructed = false ∧ s'.constructed = false ∧ s.inputs = s'.inputs ∧ s.responses = s'.responses ∧
    ∃ t, runSteps 2 s = .next t :=
  ⟨rfl, rfl, rfl, rfl, exists_next (by decide +kernel)⟩

/-- IdleBlockHoldsItsState. -/
theorem test_witness_idle : (engine .sha256 abc 3).inputs = [] := rfl

/-- InstancesAreIndependent: a step of the second of two blocks. -/
theorem test_witness_instances :
    (∃ system', stepInstance 1 [State.reset, asked (engine .sha256 abc 3) 0x05000000#32 0#32] = .next system') ∧
    ([State.reset, asked (engine .sha256 abc 3) 0x05000000#32 0#32] : List State)[1]? =
      ([engine .sha224 [] 0, asked (engine .sha256 abc 3) 0x05000000#32 0#32] : List State)[1]? ∧
    (∃ system', stepInstance 1 [engine .sha224 [] 0, asked (engine .sha256 abc 3) 0x05000000#32 0#32] =
      .next system') := ⟨⟨_, rfl⟩, rfl, ⟨_, rfl⟩⟩

/-- CompressionsPerCommand: the buffer at 55 and at 60 bytes. -/
theorem test_witness_compressions :
    (engine .sha256 (List.replicate 55 0) 55).constructed = true ∧ BufferInv (engine .sha256 (List.replicate 55 0) 55) ∧
    BufferInv (engine .sha256 (List.replicate 60 0) 60) ∧ (4 : BitVec 8).toNat ≤ 4 :=
  ⟨rfl, fun _ => by decide +kernel, fun _ => by decide +kernel, by decide⟩

/-- CodecLaws, ScheduleRecurrence and CompressIsSixtyFourRounds: a 64-byte block; FourByteWritesSpellWords: sixteen words. -/
theorem test_witness_blocks :
    (pad abc 3).length = 64 ∧ (List.replicate 64 (0 : Byte)).length = 64 ∧
    (List.replicate 16 (0x61626364#32 : Word)).length = 16 ∧
    wordToBytes 0x01020304#32 = [0x01, 0x02, 0x03, 0x04] := by decide +kernel

/-- RotationAndShiftBits, ChooseAndMajorityBits and SigmaBits: the ends of the rotation amounts and of a word's bits. -/
theorem test_witness_rotations : (0 < 1 ∧ 1 < 32) ∧ (0 < 31 ∧ 31 < 32) ∧ 0 < 32 := by decide

/-- PaddingBlocks and PaddingLengthField: tails of 0, 55, 56 and 63 bytes, and the greatest total. -/
theorem test_witness_padding :
    ([] : List Byte).length ≤ 55 ∧ (List.replicate 55 (0 : Byte)).length ≤ 55 ∧
    (56 ≤ m56.length ∧ m56.length ≤ 63) ∧
    (56 ≤ (List.replicate 63 (0 : Byte)).length ∧ (List.replicate 63 (0 : Byte)).length ≤ 63) ∧
    2 ^ 61 - 1 ≤ 2 ^ 61 - 1 := by decide +kernel

/-- WritesExpansion: a piece of one byte after a full one. -/
theorem test_witness_writes : 1 < (([1, 2, 3, 4, 5] : List Byte).length + 3) / 4 ∧
    min 4 (([1, 2, 3, 4, 5] : List Byte).length - 4 * 1) ≤ 1 ∧ 1 < 4 := by decide

end Sys2Proof.Tests
end

section

/-! What one step does to the block and to the message it holds (10_state.md rules R20 to R27, R34 to R36). -/

namespace Sys2Proof.Machine

open Sys2Proof.Safety

/-! ## Cutting a string that goes on after a tail (rules R26, R185) -/

/-- One whole block is one compression. -/
theorem compressAll_of_block (s : DigestState) (block : List Byte) (full : block.length = 64) :
    compressAll s block = compress s block := by
  have whole := compressAll_append s block [] full
  rwa [List.append_nil, compressAll_of_short _ [] (by simp)] at whole

/-- More bytes after `m` are compressed from where `m` left off, with the tail of `m` in front of them. -/
theorem compressAll_append_tail (s : DigestState) (m rest : List Byte) :
    compressAll s (m ++ rest) = compressAll (compressAll s m) (m.drop (64 * (m.length / 64)) ++ rest) := by
  have cut : m.take (64 * (m.length / 64)) ++ m.drop (64 * (m.length / 64)) = m := List.take_append_drop _ m
  have whole : (m.take (64 * (m.length / 64))).length % 64 = 0 := by rw [List.length_take]; omega
  have tail : (m.drop (64 * (m.length / 64))).length < 64 := by rw [List.length_drop]; omega
  have before : compressAll s m = compressAll s (m.take (64 * (m.length / 64))) := by
    conv_lhs => rw [← cut]
    rw [compressAll_append_whole _ _ _ whole, compressAll_of_short _ _ tail]
  conv_lhs => rw [← cut, List.append_assoc]
  rw [compressAll_append_whole _ _ _ whole, before]

/-! ## The number of bytes held -/

/-- One byte more in the buffer, counted modulo the block size (rules R22, R204). -/
theorem absorbByte_buf_length (s : State) (d : Byte) (room : s.buf.length < 64) :
    (s.absorbByte d).buf.length = (s.buf.length + 1) % 64 := by
  by_cases full : s.buf.length = 63
  · simp [absorbByte_of_full s d full, full]
  · simp [absorbByte_of_room s d full]; omega

theorem absorb_buf_length (s : State) (bytes : List Byte) (room : s.buf.length < 64) :
    (s.absorb bytes).buf.length = (s.buf.length + bytes.length) % 64 := by
  induction bytes generalizing s with
  | nil => simp; omega
  | cons d bytes ih =>
    have first := absorbByte_buf_length s d room
    rw [absorb_cons, ih _ (by omega), first, List.length_cons]
    omega

/-- LEN as a number, while it is in its range (rule R23). -/
theorem absorb_len_toNat (s : State) (bytes : List Byte) (room : s.len.toNat + bytes.length ≤ 2 ^ 61 - 1) :
    (s.absorb bytes).len.toNat = s.len.toNat + bytes.length := by
  rw [absorb_len, BitVec.toNat_add, BitVec.toNat_ofNat]
  omega

end Sys2Proof.Machine

/-! ## Blocks that agree, the buffer invariant and the held message -/

namespace Sys2Proof.Safety

open Sys2Proof.Machine

/-- Answering touches the host's side alone. -/
theorem sameBlock_respond (s : State) (st : Status) (ws : List Word) : SameBlock s (s.respond st ws) :=
  ⟨rfl, rfl, rfl, rfl, rfl⟩

theorem sameBlock_answerIllegal (s : State) : SameBlock s s.answerIllegal := sameBlock_respond s .illegal []

/-- Taking an event off the host's side does not touch the block. -/
theorem sameBlock_inputs (s : State) (rest : List Input) : SameBlock s ({ s with inputs := rest } : State) :=
  ⟨rfl, rfl, rfl, rfl, rfl⟩

theorem SameBlock.trans {s t u : State} (first : SameBlock s t) (second : SameBlock t u) : SameBlock s u := by
  obtain ⟨c, v, h, b, l⟩ := first
  obtain ⟨c', v', h', b', l'⟩ := second
  exact ⟨c.trans c', v.trans v', h.trans h', b.trans b', l.trans l'⟩

/-- The held message is a matter of the block alone. -/
theorem Holds.of_sameBlock {s t : State} {m : List Byte} (held : Holds s m) (same : SameBlock s t) : Holds t m := by
  obtain ⟨c, v, h, b, l⟩ := same
  unfold Holds at *
  rwa [← c, ← v, ← h, ← b, ← l]

theorem BufferInv.of_sameBlock {s t : State} (inv : BufferInv s) (same : SameBlock s t) : BufferInv t := by
  obtain ⟨c, _, _, b, l⟩ := same
  unfold BufferInv at *
  rwa [← c, ← b, ← l]

/-- A block as INIT and RESET leave it holds the empty message (rule R36). -/
theorem holds_nil {s : State} (active : s.constructed = true) (h : s.h = initialVector s.variant)
    (buf : s.buf = []) (len : s.len = 0) : Holds s [] := by
  refine ⟨active, by simp, by simp [len], buf, ?_⟩
  rw [h, compressAll_of_short _ [] (by simp)]

/-- A block that holds a message meets the buffer invariant (rule R26). -/
theorem Holds.bufferInv {s : State} {m : List Byte} (held : Holds s m) : BufferInv s := by
  obtain ⟨_, limit, len, buf, _⟩ := held
  intro _
  rw [buf, len, List.length_drop]
  omega

/-- A message byte absorbed is one byte more of the held message (rules R26, R204). -/
theorem Holds.absorbByte {s : State} {m : List Byte} (held : Holds s m) (d : Byte)
    (room : m.length + 1 ≤ 2 ^ 61 - 1) : Holds (s.absorbByte d) (m ++ [d]) := by
  obtain ⟨active, _, len, buf, h⟩ := held
  have tail : s.buf.length = m.length % 64 := by rw [buf, List.length_drop]; omega
  have counted : (s.len + 1).toNat = (m ++ [d]).length := by
    rw [BitVec.toNat_add, len, List.length_append]; simp; omega
  have goesOn : compressAll (initialVector s.variant) (m ++ [d]) = compressAll s.h (s.buf ++ [d]) := by
    rw [compressAll_append_tail, ← h, ← buf]
  by_cases full : s.buf.length = 63
  · rw [absorbByte_of_full s d full]
    refine ⟨active, by simpa using room, counted, ?_, ?_⟩
    · exact (List.drop_of_length_le (by simp; omega)).symm
    · exact (goesOn.trans (compressAll_of_block _ _ (by simp [full]))).symm
  · rw [absorbByte_of_room s d full]
    refine ⟨active, by simpa using room, counted, ?_, ?_⟩
    · have sameCut : 64 * ((m ++ [d]).length / 64) = 64 * (m.length / 64) := by simp; omega
      change s.buf ++ [d] = _
      rw [sameCut, List.drop_append_of_le_length (by omega), ← buf]
    · exact (goesOn.trans (compressAll_of_short _ _ (by simp; omega))).symm

/-- Bytes absorbed are appended to the held message (rules R26, R203). -/
theorem Holds.absorb {s : State} {m : List Byte} (held : Holds s m) (bytes : List Byte)
    (room : m.length + bytes.length ≤ 2 ^ 61 - 1) : Holds (s.absorb bytes) (m ++ bytes) := by
  induction bytes generalizing s m with
  | nil => simpa using held
  | cons d bytes ih =>
    rw [List.length_cons] at room
    have first := held.absorbByte d (by omega)
    simpa using ih first (by simp; omega)

/-- Absorbing within the length limit keeps the buffer invariant (rules R22, R23). -/
theorem BufferInv.absorb {s : State} (inv : BufferInv s) (bytes : List Byte)
    (room : s.len.toNat + bytes.length ≤ 2 ^ 61 - 1) : BufferInv (s.absorb bytes) := by
  intro active
  obtain ⟨short, _, tail⟩ := inv (by simpa using active)
  rw [absorb_buf_length s bytes short, absorb_len_toNat s bytes room]
  omega

end Sys2Proof.Safety

/-! ## The frame of a command (rules R27, R38) -/

namespace Sys2Proof.Machine

open Sys2Proof.Safety

theorem Effect.inputs_eq {s t : State} {i : Instr} (effect : Effect s i t) : t.inputs = s.inputs := by
  cases effect <;> simp

theorem Effect.one_response {s t : State} {i : Instr} (effect : Effect s i t) :
    ∃ answer, t.responses = s.responses ++ [answer] := by
  cases effect <;> exact ⟨_, by simp; rfl⟩

/-- The block INIT makes, in every state (rule R201). -/
theorem Effect.of_init {s t : State} {v : Variant} (effect : Effect s (.init v) t) :
    t.constructed = true ∧ t.variant = v ∧ t.h = initialVector v ∧ t.buf = [] ∧ t.len = 0 := by
  cases effect with
  | premature _ notInit _ => exact absurd rfl (notInit v)
  | init _ => exact ⟨rfl, rfl, rfl, rfl, rfl⟩

/-- CONSTRUCTED and VARIANT are INIT's alone (rules R24, R25). -/
theorem Effect.constructed_variant_of_notInit {s t : State} {i : Instr} (effect : Effect s i t)
    (notInit : ∀ v, i ≠ .init v) : t.constructed = s.constructed ∧ t.variant = s.variant := by
  cases effect with
  | init v => exact absurd rfl (notInit v)
  | write n data => simp
  | _ => exact ⟨rfl, rfl⟩

/-- An unconstructed block answers ILLEGAL and stays as it is (rule R241 condition 4). -/
theorem Effect.sameBlock_of_unconstructed {s t : State} {i : Instr} (effect : Effect s i t)
    (notInit : ∀ v, i ≠ .init v) (idle : s.constructed = false) : SameBlock s t := by
  cases effect with
  | premature | badCount => exact sameBlock_answerIllegal s
  | init v => exact absurd rfl (notInit v)
  | reset active => simp [idle] at active
  | write _ _ active => simp [idle] at active
  | sum | size | blocksize => exact sameBlock_respond s _ _

/-- SUM, SIZE and BLOCKSIZE only answer (rules R205 to R207). -/
theorem Effect.sameBlock_of_query {s t : State} {i : Instr} (effect : Effect s i t)
    (query : i = .sum ∨ i = .size ∨ i = .blocksize) : SameBlock s t := by
  cases effect with
  | premature | badCount => exact sameBlock_answerIllegal s
  | init | reset | write => simp at query
  | sum | size | blocksize => exact sameBlock_respond s _ _

/-- The two ways a WRITE ends: an ILLEGAL answer, or its bytes absorbed and an OK (rule R203). -/
theorem Effect.of_write {s t : State} {n : BitVec 8} {data : Word} (effect : Effect s (.write n data) t) :
    t = s.answerIllegal ∨
    (s.constructed = true ∧ n.toNat ≤ 4 ∧ s.len.toNat + n.toNat ≤ 2 ^ 61 - 1 ∧
      t = (s.absorb (messageBytes n data)).respond .ok []) := by
  cases effect with
  | premature | badCount => exact .inl rfl
  | write _ _ active small room => exact .inr ⟨active, small, room, rfl⟩

/-- A WRITE that leaves the buffer short of a block leaves H (rule R203). -/
theorem Effect.write_h_of_room {s t : State} {n : BitVec 8} {data : Word} (effect : Effect s (.write n data) t)
    (room : s.buf.length + n.toNat < 64) : t.h = s.h := by
  obtain rfl | ⟨_, _, _, rfl⟩ := effect.of_write
  · rfl
  · exact (absorb_of_room s (messageBytes n data) (by simpa using room)).1

/-- A WRITE with an ill-formed count changes nothing of the block (rule R241 condition 3). -/
theorem Effect.write_sameBlock_of_large {s t : State} {n : BitVec 8} {data : Word}
    (effect : Effect s (.write n data) t) (large : 4 < n.toNat) : SameBlock s t := by
  obtain rfl | ⟨_, small, _⟩ := effect.of_write
  · exact sameBlock_answerIllegal s
  · omega

/-- What a command can make of the block: nothing new, the fresh engine, or its message bytes absorbed. -/
theorem Effect.block {s t : State} {i : Instr} (effect : Effect s i t) :
    SameBlock s t ∨ Holds t [] ∨
    ∃ bytes : List Byte, s.constructed = true ∧ s.len.toNat + bytes.length ≤ 2 ^ 61 - 1 ∧
      SameBlock (s.absorb bytes) t := by
  cases effect with
  | premature | badCount => exact .inl (sameBlock_answerIllegal s)
  | init v => exact .inr (.inl (holds_nil rfl rfl rfl rfl))
  | reset active => exact .inr (.inl (holds_nil active rfl rfl rfl))
  | write n data active _ room =>
    exact .inr (.inr ⟨messageBytes n data, active, by simpa using room, sameBlock_respond _ _ _⟩)
  | sum | size | blocksize => exact .inl (sameBlock_respond s _ _)

/-- What a step can make of the block: what a command can, or the unconstructed block of a hardware reset. -/
theorem step_block {s t : State} (next : step s = .next t) :
    SameBlock s t ∨ t.constructed = false ∨ Holds t [] ∨
    ∃ bytes : List Byte, s.constructed = true ∧ s.len.toNat + bytes.length ≤ 2 ^ 61 - 1 ∧
      SameBlock (s.absorb bytes) t := by
  cases step_next next with
  | idle => exact .inl ⟨rfl, rfl, rfl, rfl, rfl⟩
  | malformed r rest => exact .inl ((sameBlock_inputs s rest).trans (sameBlock_answerIllegal _))
  | hardwareReset => exact .inr (.inl rfl)
  | command r rest i _ _ _ effect =>
    obtain same | fresh | ⟨bytes, active, room, same⟩ := effect.block
    · exact .inl ((sameBlock_inputs s rest).trans same)
    · exact .inr (.inr (.inl fresh))
    · refine .inr (.inr (.inr ⟨bytes, active, room, ?_⟩))
      have moved : ({ s with inputs := rest } : State).absorb bytes = withInputs rest (s.absorb bytes) :=
        absorb_withInputs rest s bytes
      rw [moved] at same
      exact (sameBlock_inputs (s.absorb bytes) rest).trans same

/-! ## The message a command leaves (rule R26) -/

/-- The message a block holds after a well-formed command, when it held `m` before. -/
def heldAfter (i : Instr) (m : List Byte) : List Byte :=
  match i with
  | .init _ => []
  | .reset => []
  | .write n data => m ++ messageBytes n data
  | .sum => m
  | .size => m
  | .blocksize => m

/-- The variant of a constructed block after a well-formed command. -/
def variantAfter (i : Instr) (old : Variant) : Variant :=
  match i with
  | .init v => v
  | .reset => old
  | .write _ _ => old
  | .sum => old
  | .size => old
  | .blocksize => old

theorem Effect.variant_eq {s t : State} {i : Instr} (effect : Effect s i t) :
    t.variant = variantAfter i s.variant := by
  cases i with
  | init v => exact effect.of_init.2.1
  | _ => exact (effect.constructed_variant_of_notInit (by simp)).2

theorem Effect.holds {s t : State} {i : Instr} {m : List Byte} (effect : Effect s i t)
    (legal : i.wellFormed = true) (held : Holds s m) : Holds t (heldAfter i m) := by
  have ⟨constructed, _, len, _⟩ := held
  cases effect with
  | premature _ _ idle => simp [idle] at constructed
  | badCount n data large => simp [Instr.wellFormed, Config.maxWriteBytes] at legal; omega
  | init v => exact holds_nil rfl rfl rfl rfl
  | reset active => exact holds_nil active rfl rfl rfl
  | write n data _ _ room =>
    exact (held.absorb (messageBytes n data) (by simpa [← len] using room)).of_sameBlock (sameBlock_respond _ _ _)
  | sum | size | blocksize => exact held.of_sameBlock (sameBlock_respond s _ _)

/-- The inversion lemma of a step on a request that decodes. -/
theorem step_effect_of_legal {s t : State} {r : Request} {rest : List Input} {i : Instr} (next : step s = .next t)
    (request : s.inputs = .request r :: rest) (good : decode r = .legal i) :
    Effect ({ s with inputs := rest } : State) i t := by
  rw [step_of_request s r rest request, execRequest_of_legal r _ i good] at next
  exact exec_next next

/-- A step on a request that does not decode (rule R242). -/
theorem step_of_illegal {s : State} {r : Request} {rest : List Input} {why : Malformed}
    (request : s.inputs = .request r :: rest) (bad : decode r = .illegal why) :
    step s = .next ({ s with inputs := rest } : State).answerIllegal := by
  rw [step_of_request s r rest request, execRequest_of_malformed r _ why bad]

/-- A decoded command takes the held message and the variant where `heldAfter` and `variantAfter` say. -/
theorem step_holds_of_legal {s t : State} {r : Request} {rest : List Input} {i : Instr} {m : List Byte}
    (held : Holds s m) (next : step s = .next t) (request : s.inputs = .request r :: rest)
    (good : decode r = .legal i) : Holds t (heldAfter i m) ∧ t.variant = variantAfter i s.variant := by
  have effect := step_effect_of_legal next request good
  obtain ⟨wellFormed, _⟩ := decode_eq_legal good
  exact ⟨effect.holds wellFormed (held.of_sameBlock (sameBlock_inputs s rest)), effect.variant_eq⟩

/-- An illegal encoding leaves the held message and the variant. -/
theorem step_holds_of_illegal {s t : State} {r : Request} {rest : List Input} {why : Malformed} {m : List Byte}
    (held : Holds s m) (next : step s = .next t) (request : s.inputs = .request r :: rest)
    (bad : decode r = .illegal why) : Holds t m ∧ t.variant = s.variant := by
  rw [step_of_illegal request bad] at next
  cases next
  exact ⟨held.of_sameBlock ((sameBlock_inputs s rest).trans (sameBlock_answerIllegal _)), rfl⟩

/-! ## Blocks that agree but for what an unconstructed one holds (rules R36, R260) -/

/-- Two states a host cannot tell apart: they agree on its side and on CONSTRUCTED, and a constructed block is the same
in both. -/
def Alike (s s' : State) : Prop :=
  s'.responses = s.responses ∧ s'.inputs = s.inputs ∧ s'.constructed = s.constructed ∧ (s.constructed = true → s' = s)

theorem Alike.refl (s : State) : Alike s s := ⟨rfl, rfl, rfl, fun _ => rfl⟩

/-- The same events put to both leave them alike. -/
theorem Alike.withEvents {s s' : State} (alike : Alike s s') (rest : List Input) :
    Alike ({ s with inputs := rest } : State) ({ s' with inputs := rest } : State) := by
  obtain ⟨responses, _, constructed, same⟩ := alike
  exact ⟨responses, rfl, constructed, fun active => by rw [same active]⟩

/-- INIT makes the same state of any two with the same host's side (rules R36, R201). -/
theorem exec_init_congr (v : Variant) {s s' : State} (inputs : s'.inputs = s.inputs)
    (responses : s'.responses = s.responses) : exec (.init v) s' = exec (.init v) s := by
  cases s; cases s'; cases inputs; cases responses; rfl

/-- A request to two unconstructed blocks is answered alike: an INIT constructs the same block in both, and anything else
is ILLEGAL in both. -/
theorem execRequest_alike {s s' t : State} (r : Request) (alike : Alike s s')
    (idle : s.constructed = false) (next : execRequest r s = .next t) :
    ∃ t', execRequest r s' = .next t' ∧ Alike t t' := by
  obtain ⟨responses, inputs, constructed, _⟩ := alike
  have answered : Alike s.answerIllegal s'.answerIllegal :=
    ⟨by simp [responses], inputs, constructed, by simp [idle]⟩
  match verdict : decode r with
  | .illegal why =>
    rw [execRequest_of_malformed r _ why verdict] at next ⊢
    cases next
    exact ⟨_, rfl, answered⟩
  | .legal i =>
    rw [execRequest_of_legal r _ i verdict] at next ⊢
    by_cases init : ∃ v, i = .init v
    · obtain ⟨v, rfl⟩ := init
      exact ⟨t, (exec_init_congr v inputs responses).trans next, Alike.refl t⟩
    · have notInit : ∀ v, i ≠ .init v := fun v same => init ⟨v, same⟩
      rw [exec_of_unconstructed i s notInit idle] at next
      cases next
      exact ⟨_, exec_of_unconstructed i s' notInit (constructed.trans idle), answered⟩

theorem step_of_hardwareReset (s : State) (during : Option Request) (rest : List Input)
    (next : s.inputs = .hardwareReset during :: rest) :
    step s = .next ({ s with inputs := rest } : State).hardwareReset := by
  simp [step, stepOnce, next, execInput]

/-- States a host cannot tell apart stay so over a step. -/
theorem step_alike {s s' t : State} (alike : Alike s s') (next : step s = .next t) :
    ∃ t', step s' = .next t' ∧ Alike t t' := by
  have ⟨responses, inputs, constructed, same⟩ := alike
  cases active : s.constructed with
  | true => exact ⟨t, by rw [same active, next], Alike.refl t⟩
  | false =>
    match event : s.inputs with
    | [] =>
      rw [step_of_idle s event] at next
      cases next
      exact ⟨s', step_of_idle s' (inputs.trans event), alike⟩
    | .request r :: rest =>
      rw [step_of_request s r rest event] at next
      rw [step_of_request s' r rest (inputs.trans event)]
      exact execRequest_alike r (alike.withEvents rest) active next
    | .hardwareReset during :: rest =>
      rw [step_of_hardwareReset s during rest event] at next
      cases next
      exact ⟨_, step_of_hardwareReset s' during rest (inputs.trans event), by simp [Alike, responses]⟩

/-- A run that ends goes through its first step. -/
theorem runSteps_succ_next {k : Nat} {s t : State} (run : runSteps (k + 1) s = .next t) :
    ∃ u, step s = .next u ∧ runSteps k u = .next t := by
  unfold runSteps at run
  split at run
  · exact ⟨_, ‹_›, run⟩
  · cases run
  · cases run

theorem runSteps_succ_of_step {s u : State} (k : Nat) (first : step s = .next u) :
    runSteps (k + 1) s = runSteps k u := by
  simp [runSteps, first]

/-- States a host cannot tell apart stay so over any number of steps. -/
theorem runSteps_alike {k : Nat} {s s' t : State} (alike : Alike s s') (run : runSteps k s = .next t) :
    ∃ t', runSteps k s' = .next t' ∧ Alike t t' := by
  induction k generalizing s s' with
  | zero => cases run; exact ⟨s', rfl, alike⟩
  | succ k ih =>
    obtain ⟨u, first, later⟩ := runSteps_succ_next run
    obtain ⟨u', first', alike'⟩ := step_alike alike first
    obtain ⟨t', later', ends⟩ := ih alike' later
    exact ⟨t', (runSteps_succ_of_step k first').trans later', ends⟩

end Sys2Proof.Machine

/-! ## The initial vectors (rules R34, R35) -/

namespace Sys2Proof.Safety

open Sys2Proof.Machine

/-- The low 32 bits of ⌊2^32·√p⌋ are the first 32 fractional bits of √p (`p` below 256, so that √p is below 16). -/
theorem isSquareRootFraction_sqrt (p : Nat) (small : p < 256) :
    IsSquareRootFraction p (Nat.sqrt (p * 2 ^ 64) % 2 ^ 32) := by
  have below : Nat.sqrt (p * 2 ^ 64) < 16 * 2 ^ 32 := Nat.sqrt_lt'.mpr (by omega)
  have split : Nat.sqrt (p * 2 ^ 64) / 2 ^ 32 * 2 ^ 32 + Nat.sqrt (p * 2 ^ 64) % 2 ^ 32 = Nat.sqrt (p * 2 ^ 64) :=
    Nat.div_add_mod' _ _
  refine ⟨Nat.sqrt (p * 2 ^ 64) / 2 ^ 32, by omega, Nat.mod_lt _ (by decide), ?_, ?_⟩
  · rw [split]; exact Nat.sqrt_le' _
  · rw [split]; exact Nat.lt_succ_sqrt' _

/-- The low 32 bits of ⌊2^64·√p⌋ are the second 32 fractional bits of √p. -/
theorem isSecondSquareRootFraction_sqrt (p : Nat) :
    IsSecondSquareRootFraction p (Nat.sqrt (p * 2 ^ 128) % 2 ^ 32) :=
  ⟨Nat.sqrt (p * 2 ^ 128), Nat.sqrt_le' _, Nat.lt_succ_sqrt' _, rfl⟩

theorem firstPrimes_lt_of_lt_eight : ∀ i < 8, firstPrimes.getD i 0 < 256 := by decide +kernel

theorem iv256_eq_sqrt : ∀ i < 8, ((digestWords iv256 .sha256).getD i 0).toNat =
    Nat.sqrt (firstPrimes.getD i 0 * 2 ^ 64) % 2 ^ 32 := by decide +kernel

theorem iv224_eq_sqrt : ∀ i < 8, ((digestWords iv224 .sha256).getD i 0).toNat =
    Nat.sqrt (firstPrimes.getD (i + 8) 0 * 2 ^ 128) % 2 ^ 32 := by decide +kernel

end Sys2Proof.Safety

/-! ## The obligations -/

namespace Sys2Proof.Proofs

open Sys2Proof.Machine Sys2Proof.Safety

/-- Settles O24: each clause is `heldAfter` of its command, an illegal encoding or an idle step. -/
theorem stepTracksHeldMessage : Obligations.StepTracksHeldMessage := by
  intro s t m held next
  refine ⟨?_, ?_, ?_, ?_, ?_⟩
  · intro r rest n data request good
    exact step_holds_of_legal held next request good
  · intro r rest v request good
    exact step_holds_of_legal held next request good
  · intro r rest request good
    exact step_holds_of_legal held next request good
  · rintro r rest request (good | good | good | ⟨why, bad⟩)
    · exact step_holds_of_legal held next request good
    · exact step_holds_of_legal held next request good
    · exact step_holds_of_legal held next request good
    · exact step_holds_of_illegal held next request bad
  · intro idle
    rw [step_of_idle s idle] at next
    cases next
    exact ⟨held, rfl⟩

/-- Settles O25, by what a step can make of the block: only absorbed bytes move the buffer and LEN, and they move them
together. -/
theorem stepKeepsBufferInvariant : Obligations.StepKeepsBufferInvariant := by
  intro s t inv next
  obtain same | cleared | fresh | ⟨bytes, _, room, same⟩ := step_block next
  · exact inv.of_sameBlock same
  · intro active
    simp [cleared] at active
  · exact fresh.bufferInv
  · exact (inv.absorb bytes room).of_sameBlock same

/-- Settles O26, by what a step can make of the block: absorbed bytes are appended to the held message. -/
theorem stepKeepsMessageInvariant : Obligations.StepKeepsMessageInvariant := by
  refine ⟨?_, ?_⟩
  · intro s t inv next active
    obtain same | cleared | fresh | ⟨bytes, constructed, room, same⟩ := step_block next
    · obtain ⟨m, held⟩ := inv (same.1.trans active)
      exact ⟨m, held.of_sameBlock same⟩
    · simp [cleared] at active
    · exact ⟨[], fresh⟩
    · obtain ⟨m, held⟩ := inv constructed
      have ⟨_, _, len, _⟩ := held
      exact ⟨m ++ bytes, (held.absorb bytes (by omega)).of_sameBlock same⟩
  · intro s inv active
    obtain ⟨m, held⟩ := inv active
    exact held.bufferInv active

/-- Settles O18: the frame lemmas of `Effect`, one a clause. -/
theorem commandFrame : Obligations.CommandFrame := by
  intro i s t next
  have effect := exec_next next
  refine ⟨effect.inputs_eq, effect.one_response, effect.constructed_variant_of_notInit,
    effect.sameBlock_of_unconstructed, effect.sameBlock_of_query, ?_, ?_⟩
  · rintro n data rfl room
    exact effect.write_h_of_room room
  · rintro n data rfl large
    exact effect.write_sameBlock_of_large large

/-- Settles O28: of the commands INIT alone writes VARIANT. -/
theorem onlyInitWritesVariant : Obligations.OnlyInitWritesVariant := by
  intro s t next changed
  cases step_next next with
  | idle | malformed => exact absurd rfl changed
  | hardwareReset during rest event => exact .inr ⟨during, rest, event⟩
  | command r rest i _ request good effect =>
    by_cases init : ∃ v, i = .init v
    · obtain ⟨v, rfl⟩ := init
      obtain ⟨_, variant, _⟩ := effect.of_init
      exact .inl ⟨r, rest, request, by rw [variant, good]⟩
    · have kept := effect.constructed_variant_of_notInit fun v same => init ⟨v, same⟩
      exact absurd kept.2 changed

/-- Settles O29: INIT leaves CONSTRUCTED set, and no other command writes it. -/
theorem constructedSetByInitClearedByHardwareReset : Obligations.ConstructedSetByInitClearedByHardwareReset := by
  intro s t next
  cases step_next next with
  | idle | malformed => exact ⟨fun on off => by simp [on] at off, fun off on => by simp [off] at on⟩
  | hardwareReset during rest event => exact ⟨fun _ _ => ⟨during, rest, event⟩, fun _ on => by simp at on⟩
  | command r rest i _ request good effect =>
    by_cases init : ∃ v, i = .init v
    · obtain ⟨v, rfl⟩ := init
      obtain ⟨constructed, _⟩ := effect.of_init
      exact ⟨fun _ off => by simp [constructed] at off, fun _ _ => ⟨r, rest, v, request, good⟩⟩
    · obtain ⟨kept, _⟩ := effect.constructed_variant_of_notInit fun v same => init ⟨v, same⟩
      exact ⟨fun on off => by simp [kept, on] at off, fun off on => by simp [kept, off] at on⟩

/-- Settles O30: the case split is on the command, and for a WRITE on whether it makes 64 bytes. -/
theorem digestStateWritersAreAtomic : Obligations.DigestStateWritersAreAtomic := by
  intro s t r rest short request next
  match verdict : decode r with
  | .illegal why =>
    rw [step_of_illegal request verdict] at next
    cases next
    exact .inl rfl
  | .legal i =>
    cases step_effect_of_legal next request verdict with
    | premature | badCount | sum | size | blocksize => exact .inl rfl
    | init v => exact .inr (.inl ⟨v, rfl, rfl⟩)
    | reset => exact .inr (.inr (.inl ⟨rfl, rfl⟩))
    | write n data _ small =>
      by_cases fits : s.buf.length + n.toNat < 64
      · exact .inl (absorb_of_room _ (messageBytes n data) (by simpa using fits)).1
      · have spilled := (absorb_of_spill ({ s with inputs := rest } : State) (messageBytes n data) short
          (by simp; omega) (by simp; omega)).1
        rw [List.take_append, List.take_of_length_le (l := s.buf) (by omega)] at spilled
        exact .inr (.inr (.inr ⟨n, data, rfl, by omega, spilled⟩))

/-- Settles O36: two unconstructed states with the same host's side are `Alike`, and every step keeps that. -/
theorem unspecifiedValuesNeverObserved : Obligations.UnspecifiedValuesNeverObserved := by
  intro k s s' idle idle' inputs responses t run
  have alike : Alike s s' := ⟨responses.symm, inputs.symm, idle'.trans idle.symm, by simp [idle]⟩
  exact runSteps_alike alike run

/-- Settles O47: each word is the low half of an integer square root. -/
theorem initialVectorsAreSquareRootBits : Obligations.InitialVectorsAreSquareRootBits := by
  refine ⟨?_, ?_, rfl, rfl⟩
  · intro i below
    rw [iv256_eq_sqrt i below]
    exact isSquareRootFraction_sqrt _ (firstPrimes_lt_of_lt_eight i below)
  · intro i below
    rw [iv224_eq_sqrt i below]
    exact isSecondSquareRootFraction_sqrt _

end Sys2Proof.Proofs
end

section
/-! The bytes of a word, commands issued once and twice, and blocks side by side (20_memory.md rules R51, R53, R57,
R62; 40_codec.md rules R100 to R104). -/

/-! ## The encoder, read back (rules R71 to R80) -/

namespace Sys2Proof

/-- A count of at most four is legal (rule R74). -/
theorem wellFormed_write_iff (n : BitVec 8) (data : Word) : (Instr.write n data).wellFormed = true ↔ n.toNat ≤ 4 :=
  decide_eq_true_iff

/-- The request of a well-formed command decodes to it. -/
theorem decode_encode (i : Instr) (legal : i.wellFormed = true) : decode (encode i) = .legal i := by
  have op : opField (encode i).cmd = i.op := opField_append _ _ _
  have arg : argField (encode i).cmd = i.arg := argField_append _ _ _
  have rsv : rsvField (encode i).cmd = 0x0000#16 := rsvField_append _ _ _
  unfold decode
  rw [op, arg, rsv]
  cases i with
  | init v => cases v <;> rfl
  | reset | sum | size | blocksize => rfl
  | write n data =>
    have operands : operandsOf .write n data = some (.write n data) := if_pos ((wellFormed_write_iff n data).mp legal)
    simp [opcodeOf, Instr.op, Instr.arg, encode, Instr.dataWord, operands]

end Sys2Proof

namespace Sys2Proof.Machine

open Sys2Proof.Safety

/-! ## The conversions as numbers (rules R51, R100, R101, R104) -/

/-- The number a byte string spells, most significant byte first (rule R51). -/
def bigEndian (bytes : List Byte) : Nat := bytes.foldl (fun acc b => acc * 2 ^ 8 + b.toNat) 0

theorem bigEndian_wordToBytes (w : Word) : bigEndian (wordToBytes w) = w.toNat := by
  have range := w.isLt
  simp only [bigEndian, wordToBytes, List.foldl_cons, List.foldl_nil, BitVec.extractLsb'_toNat,
    Nat.shiftRight_eq_div_pow]
  omega

theorem bigEndian_u64ToBytes (x : Word64) : bigEndian (u64ToBytes x) = x.toNat := by
  have range := x.isLt
  simp only [bigEndian, u64ToBytes, List.foldl_cons, List.foldl_nil, BitVec.extractLsb'_toNat,
    Nat.shiftRight_eq_div_pow]
  omega

/-- WordToBytes undoes BytesToWord (rule R106). -/
theorem wordToBytes_bytesToWord (b0 b1 b2 b3 : Byte) : wordToBytes (bytesToWord b0 b1 b2 b3) = [b0, b1, b2, b3] := by
  obtain ⟨first, second, third, fourth⟩ := bytesToWord_bytes b0 b1 b2 b3
  rw [wordToBytes, first, second, third, fourth]

theorem bytesToWord_toNat (b0 b1 b2 b3 : Byte) : (bytesToWord b0 b1 b2 b3).toNat = bigEndian [b0, b1, b2, b3] := by
  rw [← bigEndian_wordToBytes, wordToBytes_bytesToWord]

/-- BytesToWord undoes WordToBytes (rule R106): both words are the number the four bytes spell. -/
theorem bytesToWord_of_wordToBytes {w : Word} {b0 b1 b2 b3 : Byte} (bytes : wordToBytes w = [b0, b1, b2, b3]) :
    bytesToWord b0 b1 b2 b3 = w := by
  apply BitVec.eq_of_toNat_eq
  rw [bytesToWord_toNat, ← bytes, bigEndian_wordToBytes]

theorem blockToWords_wordToBytes_append (w : Word) (rest : List Byte) :
    blockToWords (wordToBytes w ++ rest) = w :: blockToWords rest :=
  congrArg (· :: blockToWords rest) (bytesToWord_of_wordToBytes rfl)

/-- BlockToWords undoes WordsToBytes, for any number of words (rules R102, R103). -/
theorem blockToWords_wordsToBytes (ws : List Word) : blockToWords (wordsToBytes ws) = ws := by
  induction ws with
  | nil => rfl
  | cons w ws ih => rw [wordsToBytes_cons, blockToWords_wordToBytes_append, ih]

/-- WRITE 4 takes its data word most significant byte first (rules R53, R80). -/
theorem messageBytes_four (w : Word) : messageBytes 4 w = wordToBytes w := rfl

theorem flatMap_messageBytes_four (ws : List Word) : ws.flatMap (messageBytes 4) = wordsToBytes ws := rfl

/-! ## A command issued once and twice (rule R57) -/

theorem exec_reset_of_constructed (s : State) (active : s.constructed = true) :
    exec .reset s = .next ((s.startMessage s.variant).respond .ok []) :=
  requireConstructed_of_constructed s _ active

/-- A WRITE that fits absorbs its bytes and answers OK (rule R203). -/
theorem exec_write_of_room (s : State) (n : BitVec 8) (data : Word) (active : s.constructed = true)
    (small : n.toNat ≤ 4) (room : s.len.toNat + n.toNat ≤ 2 ^ 61 - 1) :
    exec (.write n data) s = .next ((s.absorb (messageBytes n data)).respond .ok []) := by
  rw [exec_write_of_small s n data small, requireConstructed_of_constructed s _ active,
    if_pos ((hasRoom_iff s _).mpr room)]

/-- A WRITE that fits completes, counts its bytes and leaves the block constructed (rules R23, R203). -/
theorem exec_write_counts (s : State) (n : BitVec 8) (data : Word) (active : s.constructed = true)
    (small : n.toNat ≤ 4) (room : s.len.toNat + n.toNat ≤ 2 ^ 61 - 1) :
    ∃ t, exec (.write n data) s = .next t ∧ t.constructed = true ∧ t.len.toNat = s.len.toNat + n.toNat := by
  refine ⟨_, exec_write_of_room s n data active small room, by simpa using active, ?_⟩
  rw [respond_len, absorb_len_toNat s _ (by rwa [messageBytes_length]), messageBytes_length]

/-- Issuing a well-formed command is executing it, once and again. -/
theorem issue_once_and_twice {i : Instr} {s t u : State} (legal : i.wellFormed = true)
    (first : exec i s = .next t) (second : exec i t = .next u) :
    issue [i] s = .next (withInputs [] t) ∧ issue [i, i] s = .next (withInputs [] u) := by
  have decoded := decode_encode i legal
  have once : runCommands [i] s = .next t := by simp [runCommands, first]
  have twice : runCommands [i, i] s = .next u := by simp [runCommands, first, second]
  constructor
  · rw [issue_eq_runCommands [i] s (by simp [decoded]), once]; rfl
  · rw [issue_eq_runCommands [i, i] s (by simp [decoded]), twice]; rfl

/-! ## Blocks side by side (rule R62) -/

/-- The inversion lemma of `stepInstance`: no block stands at place `k`, or the one there takes its own step. -/
theorem stepInstance_next {k : Nat} {system system' : List State} (next : stepInstance k system = .next system') :
    (system[k]? = none ∧ system' = system) ∨
    ∃ s t, system[k]? = some s ∧ step s = .next t ∧ system' = system.set k t := by
  unfold stepInstance at next
  split at next
  next absent => cases next; exact .inl ⟨absent, rfl⟩
  next s present =>
    split at next
    next t taken => cases next; exact .inr ⟨s, t, present, taken, rfl⟩
    next => cases next
    next => cases next

theorem stepInstance_length {k : Nat} {system system' : List State} (next : stepInstance k system = .next system') :
    system'.length = system.length := by
  obtain ⟨_, rfl⟩ | ⟨s, t, _, _, rfl⟩ := stepInstance_next next
  · rfl
  · exact List.length_set

theorem stepInstance_getElem?_ne {k j : Nat} {system system' : List State}
    (next : stepInstance k system = .next system') (other : j ≠ k) : system'[j]? = system[j]? := by
  obtain ⟨_, rfl⟩ | ⟨s, t, _, _, rfl⟩ := stepInstance_next next
  · rfl
  · exact List.getElem?_set_ne other.symm

/-- An empty place stays empty. -/
theorem stepInstance_getElem?_none {k : Nat} {system system' : List State}
    (next : stepInstance k system = .next system') (absent : system[k]? = none) : system'[k]? = none := by
  obtain ⟨_, rfl⟩ | ⟨s, t, present, _, _⟩ := stepInstance_next next
  · exact absent
  · simp [absent] at present

/-- The block at place `k` takes its own step. -/
theorem stepInstance_getElem?_some {k : Nat} {system system' : List State} {s : State}
    (next : stepInstance k system = .next system') (present : system[k]? = some s) :
    ∃ t, step s = .next t ∧ system'[k]? = some t := by
  obtain ⟨absent, _⟩ | ⟨s', t, present', taken, rfl⟩ := stepInstance_next next
  · simp [absent] at present
  · obtain rfl : s' = s := Option.some.inj (present'.symm.trans present)
    have inside : k < system.length := (List.getElem?_eq_some_iff.mp present).1
    exact ⟨t, taken, List.getElem?_set_self inside⟩

end Sys2Proof.Machine

/-! ## The obligations -/

namespace Sys2Proof.Proofs

open Sys2Proof.Machine Sys2Proof.Safety

/-- Settles O33: each command is executed once and again on what it left; a second INIT or RESET assigns the same values,
and a second WRITE counts its bytes again. -/
theorem idempotenceOfCommands : Obligations.IdempotenceOfCommands := by
  refine ⟨?_, ?_, ?_⟩
  · intro v s
    obtain ⟨once, twice⟩ := issue_once_and_twice (i := .init v) (s := s) rfl rfl rfl
    exact ⟨_, _, once, twice, rfl, rfl, rfl, rfl, rfl⟩
  · intro s active
    obtain ⟨once, twice⟩ := issue_once_and_twice (i := .reset) rfl (exec_reset_of_constructed s active)
      (exec_reset_of_constructed _ active)
    exact ⟨_, _, once, twice, rfl, rfl, rfl, rfl, rfl⟩
  · intro s n data active _ small room
    obtain ⟨t, first, active', len⟩ := exec_write_counts s n data active small (by omega)
    obtain ⟨u, second, _, len'⟩ := exec_write_counts t n data active' small (by omega)
    obtain ⟨once, twice⟩ := issue_once_and_twice ((wellFormed_write_iff n data).mpr small) first second
    exact ⟨_, _, once, twice, len'.trans (by omega), len⟩

/-- Settles O38: a step writes place `k` alone, with the next state of the block that stood there. -/
theorem instancesAreIndependent : Obligations.InstancesAreIndependent := by
  refine ⟨?_, ?_⟩
  · intro k system system' next
    exact ⟨stepInstance_length next, fun j other => stepInstance_getElem?_ne next other⟩
  · intro k a b a' b' same nextA nextB
    cases here : a[k]? with
    | none => rw [stepInstance_getElem?_none nextA here, stepInstance_getElem?_none nextB (same.symm.trans here)]
    | some s =>
      obtain ⟨t, stepA, afterA⟩ := stepInstance_getElem?_some nextA here
      obtain ⟨t', stepB, afterB⟩ := stepInstance_getElem?_some nextB (same.symm.trans here)
      obtain rfl : t = t' := by simpa [stepA] using stepB
      rw [afterA, afterB]

/-- Settles O40: each conversion keeps the number its bytes spell. -/
theorem conversionsAreBigEndian : Obligations.ConversionsAreBigEndian := by
  refine ⟨?_, ?_, ?_⟩
  · intro b0 b1 b2 b3
    rw [bytesToWord_toNat]
    simp only [bigEndian, List.foldl_cons, List.foldl_nil]
    omega
  · exact fun w => ⟨wordToBytes_length w, bigEndian_wordToBytes w⟩
  · exact fun x => ⟨u64ToBytes_length x, bigEndian_u64ToBytes x⟩

/-- Settles O42: the bytes of the writes are WordsToBytes of the data words, which BlockToWords undoes. -/
theorem fourByteWritesSpellWords : Obligations.FourByteWritesSpellWords := by
  refine ⟨messageBytes_four, ?_⟩
  intro ws sixteen
  rw [flatMap_messageBytes_four]
  exact ⟨by rw [wordsToBytes_length, sixteen], blockToWords_wordsToBytes ws⟩

end Sys2Proof.Proofs
end

section
/-! The encoding (30_encoding.md rules R70 to R84): the legal words, what DATA can decide, the response of each
request, the expansion of WRITES, and the HASH command line. -/

/-! ## The decoder and the encoder (rules R71 to R80, R241) -/

namespace Sys2Proof

/-- A command word is that of `i` exactly when its fields are. -/
theorem encode_cmd_eq_iff (i : Instr) (cmd : Word) :
    (encode i).cmd = cmd ↔ opField cmd = i.op ∧ argField cmd = i.arg ∧ rsvField cmd = 0x0000#16 := by
  constructor
  · rintro rfl
    exact Laws.Fields.fields_of_encode i
  · rintro ⟨op, arg, rsv⟩
    have whole := fields_append cmd
    rwa [op, arg, rsv] at whole

/-- A decoded request has the command word of its command. -/
theorem encode_cmd_of_decode {r : Request} {i : Instr} (good : decode r = .legal i) : (encode i).cmd = r.cmd := by
  obtain ⟨_, op, arg, rsv, _⟩ := decode_eq_legal good
  exact (encode_cmd_eq_iff i r.cmd).mpr ⟨op, arg, rsv⟩

/-- WRITE's command word as rule R81 writes it. -/
theorem encode_write_cmd (n : BitVec 8) (data : Word) :
    (encode (.write n data)).cmd = 0x03000000#32 ||| (n.zeroExtend 32 <<< 16) := by
  apply BitVec.eq_of_toNat_eq
  have small := n.isLt
  have outer : (encode (.write n data)).cmd.toNat = (0x03#8 ++ n).toNat <<< 16 ||| (0x0000#16).toNat :=
    BitVec.toNat_append (0x03#8 ++ n) 0x0000#16
  have narrow : n.toNat % 2 ^ 32 = n.toNat := by omega
  have fits : n.toNat <<< 16 % 2 ^ 32 = n.toNat <<< 16 := Nat.mod_eq_of_lt (by rw [Nat.shiftLeft_eq]; omega)
  rw [outer, BitVec.toNat_append, BitVec.toNat_or, BitVec.toNat_shiftLeft, BitVec.toNat_setWidth, narrow, fits,
    Nat.shiftLeft_or_distrib]
  simp

/-! One equation for each branch of the decoder (rule R79). -/

theorem decode_of_noOpcode {cmd : Word} (data : Word) (absent : opcodeOf (opField cmd) = none) :
    decode ⟨cmd, data⟩ = .illegal .opcode := by
  simp [decode, absent]

theorem decode_of_reserved {cmd : Word} {op : Opcode} (data : Word) (opcode : opcodeOf (opField cmd) = some op)
    (reserved : rsvField cmd ≠ 0x0000#16) : decode ⟨cmd, data⟩ = .illegal .reserved := by
  simp [decode, opcode, reserved]

theorem decode_of_fields {cmd : Word} {op : Opcode} (data : Word) (opcode : opcodeOf (opField cmd) = some op)
    (reserved : rsvField cmd = 0x0000#16) :
    decode ⟨cmd, data⟩ = (operandsOf op (argField cmd) data).elim (.illegal .argument) .legal := by
  cases operands : operandsOf op (argField cmd) data <;> simp [decode, opcode, reserved, operands]

/-- The command with `data` for the data word; only WRITE has one (rule R72). -/
def Instr.withData (data : Word) : Instr → Instr
  | .write n _ => .write n data
  | .init v => .init v
  | .reset => .reset
  | .sum => .sum
  | .size => .size
  | .blocksize => .blocksize

/-- The verdict with `data` for the data word of a decoded command. -/
def Decoded.withData (data : Word) : Decoded → Decoded
  | .legal i => .legal (i.withData data)
  | .illegal why => .illegal why

theorem operandsOf_withData (op : Opcode) (arg : BitVec 8) (d1 d2 : Word) :
    operandsOf op arg d2 = (operandsOf op arg d1).map (Instr.withData d2) := by
  cases op with
  | init => simp only [operandsOf, Option.map_map]; rfl
  | reset | write | sum | size | blocksize => simp only [operandsOf, plainArg]; split <;> rfl

/-- DATA decides nothing but the data of a WRITE (rules R72, R79). -/
theorem decode_withData (cmd d1 d2 : Word) : decode ⟨cmd, d2⟩ = (decode ⟨cmd, d1⟩).withData d2 := by
  cases opcode : opcodeOf (opField cmd) with
  | none => rw [decode_of_noOpcode d1 opcode, decode_of_noOpcode d2 opcode]; rfl
  | some op =>
    by_cases reserved : rsvField cmd = 0x0000#16
    · rw [decode_of_fields d1 opcode reserved, decode_of_fields d2 opcode reserved, operandsOf_withData _ _ d1 d2]
      cases operandsOf op (argField cmd) d1 <;> rfl
    · rw [decode_of_reserved d1 opcode reserved, decode_of_reserved d2 opcode reserved]; rfl

/-- The legal command words are those of the well-formed commands, whatever DATA is (rules R75, R79). -/
theorem exists_decode_eq_legal_iff (cmd data : Word) :
    (∃ i, decode ⟨cmd, data⟩ = .legal i) ↔ ∃ i : Instr, i.wellFormed = true ∧ (encode i).cmd = cmd := by
  constructor
  · rintro ⟨i, good⟩
    exact ⟨i, (decode_eq_legal good).1, encode_cmd_of_decode good⟩
  · rintro ⟨i, wellFormed, rfl⟩
    exact ⟨i.withData data, by rw [decode_withData _ (encode i).data, decode_encode i wellFormed]; rfl⟩

/-- 0x01 to 0x06 are the opcodes (rule R73). -/
theorem opcodeOf_eq_none_iff (op : BitVec 8) : opcodeOf op = none ↔ ¬ (1 ≤ op.toNat ∧ op.toNat ≤ 6) := by
  unfold opcodeOf
  split_ifs <;> simp <;> bv_omega

/-- OP is checked first (rule R79). -/
theorem decode_eq_illegal_opcode_iff (r : Request) :
    decode r = .illegal .opcode ↔ opcodeOf (opField r.cmd) = none := by
  obtain ⟨cmd, data⟩ := r
  cases opcode : opcodeOf (opField cmd) with
  | none => simp [decode_of_noOpcode data opcode]
  | some op =>
    by_cases reserved : rsvField cmd = 0x0000#16
    · rw [decode_of_fields data opcode reserved]
      cases operandsOf op (argField cmd) data <;> simp
    · simp [decode_of_reserved data opcode reserved]

/-- RSV is checked next (rule R241). -/
theorem decode_eq_illegal_reserved_iff (r : Request) :
    decode r = .illegal .reserved ↔ opcodeOf (opField r.cmd) ≠ none ∧ rsvField r.cmd ≠ 0x0000#16 := by
  obtain ⟨cmd, data⟩ := r
  cases opcode : opcodeOf (opField cmd) with
  | none => simp [decode_of_noOpcode data opcode]
  | some op =>
    by_cases reserved : rsvField cmd = 0x0000#16
    · rw [decode_of_fields data opcode reserved]
      cases operandsOf op (argField cmd) data <;> simp [reserved]
    · simp [decode_of_reserved data opcode reserved, reserved]

end Sys2Proof

/-! ## The legal words and the ILLEGAL requests (rules R75, R241) -/

namespace Sys2Proof.Safety

open Sys2Proof.Machine

/-- The commands of the eleven legal words, in the order of rule R75, WRITE with DATA 0. -/
def legalCommands : List Instr :=
  [.init .sha256, .init .sha224, .reset, .write 0 0, .write 1 0, .write 2 0, .write 3 0, .write 4 0,
   .sum, .size, .blocksize]

theorem legalWords_eq : legalWords = legalCommands.map fun i => (encode i).cmd := by decide

theorem legalCommands_wellFormed : ∀ i ∈ legalCommands, i.wellFormed = true := by decide

/-- Every well-formed command is one of the eleven, but for the data of a WRITE (rule R74). -/
theorem withData_mem_legalCommands (i : Instr) (wellFormed : i.wellFormed = true) : i.withData 0 ∈ legalCommands := by
  cases i with
  | init v => cases v <;> decide
  | reset | sum | size | blocksize => decide
  | write n data =>
    have small := (wellFormed_write_iff n data).mp wellFormed
    obtain rfl | rfl | rfl | rfl | rfl : n = 0 ∨ n = 1 ∨ n = 2 ∨ n = 3 ∨ n = 4 := by bv_omega
    all_goals simp [Instr.withData, legalCommands]

theorem encode_withData_cmd (i : Instr) (data : Word) : (encode (i.withData data)).cmd = (encode i).cmd := by
  cases i <;> rfl

theorem mem_legalWords_iff (cmd : Word) :
    cmd ∈ legalWords ↔ ∃ i : Instr, i.wellFormed = true ∧ (encode i).cmd = cmd := by
  rw [legalWords_eq, List.mem_map]
  constructor
  · rintro ⟨i, listed, word⟩
    exact ⟨i, legalCommands_wellFormed i listed, word⟩
  · rintro ⟨i, wellFormed, word⟩
    exact ⟨i.withData 0, withData_mem_legalCommands i wellFormed, (encode_withData_cmd i 0).trans word⟩

/-- `MalformedWord`, said of the fields. -/
theorem malformedWord_iff (cmd : Word) : MalformedWord cmd ↔
    ¬ (1 ≤ (opField cmd).toNat ∧ (opField cmd).toNat ≤ 6) ∨ rsvField cmd ≠ 0 ∨
    ((opField cmd).toNat = 1 ∧ 1 < (argField cmd).toNat) ∨
    ((opField cmd).toNat = 3 ∧ 4 < (argField cmd).toNat) ∨
    ((opField cmd).toNat ≠ 1 ∧ (opField cmd).toNat ≠ 3 ∧ argField cmd ≠ 0) := Iff.rfl

/-- A well-formed command has a legal ARG for its OP (rule R74). -/
theorem encode_not_malformedWord (i : Instr) (wellFormed : i.wellFormed = true) :
    ¬ MalformedWord (encode i).cmd := by
  obtain ⟨op, arg, rsv⟩ := Laws.Fields.fields_of_encode i
  rw [malformedWord_iff, op, arg, rsv]
  cases i with
  | init v => cases v <;> decide
  | reset | sum | size | blocksize => decide
  | write n data =>
    have small := (wellFormed_write_iff n data).mp wellFormed
    simp [Instr.op, Instr.arg]
    omega

/-- A legal OP and ARG are those of a well-formed command (rules R73, R74). -/
theorem exists_op_arg {op arg : BitVec 8} (opcode : 1 ≤ op.toNat ∧ op.toNat ≤ 6)
    (init : op.toNat = 1 → arg.toNat ≤ 1) (write : op.toNat = 3 → arg.toNat ≤ 4)
    (plain : op.toNat ≠ 1 → op.toNat ≠ 3 → arg = 0) :
    ∃ i : Instr, i.wellFormed = true ∧ op = i.op ∧ arg = i.arg := by
  obtain rfl | rfl | rfl | rfl | rfl | rfl : op = 1 ∨ op = 2 ∨ op = 3 ∨ op = 4 ∨ op = 5 ∨ op = 6 := by bv_omega
  · obtain rfl | rfl : arg = 0 ∨ arg = 1 := by have := init rfl; bv_omega
    · exact ⟨.init .sha256, rfl, rfl, rfl⟩
    · exact ⟨.init .sha224, rfl, rfl, rfl⟩
  · exact ⟨.reset, rfl, rfl, plain (by decide) (by decide)⟩
  · exact ⟨.write arg 0, (wellFormed_write_iff arg 0).mpr (write rfl), rfl, rfl⟩
  · exact ⟨.sum, rfl, rfl, plain (by decide) (by decide)⟩
  · exact ⟨.size, rfl, rfl, plain (by decide) (by decide)⟩
  · exact ⟨.blocksize, rfl, rfl, plain (by decide) (by decide)⟩

/-- Conditions 1 to 3 of rule R241 leave the words of the well-formed commands. -/
theorem not_malformedWord_iff (cmd : Word) :
    ¬ MalformedWord cmd ↔ ∃ i : Instr, i.wellFormed = true ∧ (encode i).cmd = cmd := by
  constructor
  · intro legal
    simp only [malformedWord_iff, not_or, ne_eq, not_not] at legal
    obtain ⟨opcode, rsv, init, write, plain⟩ := legal
    obtain ⟨i, wellFormed, op, arg⟩ := exists_op_arg opcode (by omega) (by omega)
      fun notInit notWrite => by_contra fun nonzero => plain ⟨notInit, notWrite, nonzero⟩
    exact ⟨i, wellFormed, (encode_cmd_eq_iff i cmd).mpr ⟨op, arg, rsv⟩⟩
  · rintro ⟨i, wellFormed, rfl⟩
    exact encode_not_malformedWord i wellFormed

/-- A word the decoder rejects meets one of conditions 1 to 3 of rule R241. -/
theorem malformedWord_of_decode {r : Request} {why : Malformed} (bad : decode r = .illegal why) :
    MalformedWord r.cmd := by
  by_contra legal
  obtain ⟨i, good⟩ := (exists_decode_eq_legal_iff r.cmd r.data).mpr ((not_malformedWord_iff r.cmd).mp legal)
  exact absurd (bad.symm.trans good) (by simp)

theorem not_malformedWord_of_decode {r : Request} {i : Instr} (good : decode r = .legal i) : ¬ MalformedWord r.cmd :=
  (not_malformedWord_iff r.cmd).mpr ⟨i, (decode_eq_legal good).1, encode_cmd_of_decode good⟩

theorem op_eq_one_iff (i : Instr) : i.op.toNat = 1 ↔ ∃ v, i = .init v := by
  cases i <;> simp [Instr.op]

/-- A decoded request is ILLEGAL by condition 4 of rule R241 alone. -/
theorem illegalRequest_iff_of_decode {r : Request} {i : Instr} (s : State) (good : decode r = .legal i) :
    IllegalRequest s r.cmd ↔ s.constructed = false ∧ ∀ v, i ≠ .init v := by
  obtain ⟨_, op, _⟩ := decode_eq_legal good
  have notInit : (opField r.cmd).toNat ≠ 1 ↔ ∀ v, i ≠ .init v := by
    rw [op, Ne, op_eq_one_iff, not_exists]
  rw [← notInit]
  exact or_iff_right (not_malformedWord_of_decode good)

end Sys2Proof.Safety

/-! ## What a command reads of DATA, and its one response (rules R72, R76, R80) -/

namespace Sys2Proof.Machine

open Sys2Proof.Safety

/-- WRITE reads its message bytes and nothing else of DATA (rule R80). -/
theorem exec_write_congr {n : BitVec 8} {d1 d2 : Word} (bytes : messageBytes n d1 = messageBytes n d2) (s : State) :
    exec (.write n d1) s = exec (.write n d2) s := by
  by_cases small : n.toNat ≤ 4
  · rw [exec_write_of_small s n d1 small, exec_write_of_small s n d2 small, bytes]
  · rw [exec_write_of_large s n d1 (by omega), exec_write_of_large s n d2 (by omega)]

/-- Another data word with the same message bytes is the same request to every state. -/
theorem execRequest_congr_data (cmd d1 d2 : Word) (s : State)
    (bytes : opField cmd = 0x03#8 → messageBytes (argField cmd) d1 = messageBytes (argField cmd) d2) :
    execRequest ⟨cmd, d1⟩ s = execRequest ⟨cmd, d2⟩ s := by
  have other := decode_withData cmd d1 d2
  cases verdict : decode ⟨cmd, d1⟩ with
  | illegal why =>
    rw [verdict] at other
    rw [execRequest_of_malformed _ s why verdict, execRequest_of_malformed _ s why other]
  | legal i =>
    rw [verdict] at other
    rw [execRequest_of_legal _ s i verdict, execRequest_of_legal _ s (i.withData d2) other]
    obtain ⟨_, op, arg, _, carried⟩ := decode_eq_legal verdict
    cases i with
    | init | reset | sum | size | blocksize => rfl
    | write n data =>
      obtain rfl : data = d1 := carried n data rfl
      rw [op, arg] at bytes
      exact exec_write_congr (bytes rfl) s

/-- The number of payload words of an OK response, by the command (the table of rule R76). -/
def payloadLength (v : Variant) : Instr → Nat
  | .sum => match v with | .sha256 => 8 | .sha224 => 7
  | .size => 1
  | .blocksize => 1
  | .init _ => 0
  | .reset => 0
  | .write _ _ => 0

theorem payloadLength_le (v : Variant) (i : Instr) : payloadLength v i ≤ 8 := by
  cases i with
  | sum => cases v <;> simp [payloadLength]
  | init | reset | write | size | blocksize => simp [payloadLength]

theorem opField_of_encode_eq {i : Instr} {cmd : Word} (word : (encode i).cmd = cmd) : opField cmd = i.op :=
  ((encode_cmd_eq_iff i cmd).mp word).1

/-- The table of rule R76 read off the command word: 0x04000000 is SUM's, 0x05000000 and 0x06000000 are SIZE's and
BLOCKSIZE's. -/
theorem payloadLength_eq_of_encode {i : Instr} {cmd : Word} (v : Variant) (word : (encode i).cmd = cmd) :
    payloadLength v i =
      if cmd = 0x04000000#32 then (match v with | .sha256 => 8 | .sha224 => 7)
      else if cmd = 0x05000000#32 ∨ cmd = 0x06000000#32 then 1 else 0 := by
  have notQuery (op : i.op ≠ 4 ∧ i.op ≠ 5 ∧ i.op ≠ 6) :
      cmd ≠ 0x04000000#32 ∧ cmd ≠ 0x05000000#32 ∧ cmd ≠ 0x06000000#32 := by
    rw [← opField_of_encode_eq word] at op
    refine ⟨?_, ?_, ?_⟩ <;> rintro rfl <;> revert op <;> decide
  cases i with
  | sum | size | blocksize => subst word; rfl
  | init | reset | write =>
    obtain ⟨notSum, notSize, notBlocksize⟩ := notQuery (by simp [Instr.op])
    simp [payloadLength, notSum, notSize, notBlocksize]

/-- The response of a legal request (rule R76). -/
theorem Effect.answer {s t : State} {i : Instr} (effect : Effect s i t) (wellFormed : i.wellFormed = true) :
    ((s.constructed = false ∧ ∀ v, i ≠ .init v) ∧ t.responses = s.responses ++ [illegalEmpty]) ∨
    (¬ (s.constructed = false ∧ ∀ v, i ≠ .init v) ∧
      ∃ ws : List Word, t.responses = s.responses ++ [okWith ws] ∧ ws.length = payloadLength s.variant i) := by
  cases effect with
  | premature _ notInit idle => exact .inl ⟨⟨idle, notInit⟩, rfl⟩
  | badCount n data large => have small := (wellFormed_write_iff n data).mp wellFormed; omega
  | init v => exact .inr ⟨fun premature => premature.2 v rfl, [], rfl, rfl⟩
  | reset active => exact .inr ⟨by simp [active], [], rfl, rfl⟩
  | write n data active => exact .inr ⟨by simp [active], [], by simp [okWith], rfl⟩
  | sum active => exact .inr ⟨by simp [active], _, rfl, digestWords_length _ _⟩
  | size active => exact .inr ⟨by simp [active], _, rfl, rfl⟩
  | blocksize active => exact .inr ⟨by simp [active], _, rfl, rfl⟩

/-! ## The expansion of WRITES (rule R82) -/

/-- Byte `i` of a packed word, 0x00 beyond the piece (rule R82). -/
theorem packBytes_extract (piece : List Byte) (i : Nat) (below : i < 4) :
    (packBytes piece).extractLsb' (24 - 8 * i) 8 = piece.getD i 0 := by
  obtain ⟨first, second, third, fourth⟩ :=
    bytesToWord_bytes (piece.getD 0 0) (piece.getD 1 0) (piece.getD 2 0) (piece.getD 3 0)
  interval_cases i
  · exact first
  · exact second
  · exact third
  · exact fourth

theorem writesOf_length (s : List Byte) : (writesOf s).length = (s.length + 3) / 4 := by simp [writesOf]

/-- The length of the `j`-th piece of rule R82. -/
theorem piece_length (s : List Byte) (j : Nat) : ((s.drop (4 * j)).take 4).length = min 4 (s.length - 4 * j) := by
  simp

theorem writesOf_getElem? (s : List Byte) (j : Nat) (below : j < (s.length + 3) / 4) :
    (writesOf s)[j]? = some (writeOf ((s.drop (4 * j)).take 4)) := by
  simp [writesOf, below]

theorem writeOf_wellFormed (piece : List Byte) (short : piece.length ≤ 4) : (writeOf piece).wellFormed = true :=
  (wellFormed_write_iff _ _).mpr (by simp; omega)

theorem writesOf_wellFormed (s : List Byte) : ∀ i ∈ writesOf s, i.wellFormed = true := by
  intro i listed
  obtain ⟨j, _, rfl⟩ := List.mem_map.mp listed
  exact writeOf_wellFormed _ (List.length_take_le _ _)

/-- The commands of `HASH v, m` decode from their own requests (rule R83). -/
theorem decode_encode_hashOf (v : Variant) (m : List Byte) : ∀ i ∈ hashOf v m, decode (encode i) = .legal i := by
  intro i listed
  apply decode_encode
  obtain rfl | written | rfl : i = .init v ∨ i ∈ writesOf m ∨ i = .sum := by simpa [hashOf] using listed
  · rfl
  · exact writesOf_wellFormed m i written
  · rfl

/-! ## Running WRITES and SUM (rules R187, R208, R212) -/

theorem runCommands_cons {i : Instr} {s t : State} (is : List Instr) (first : exec i s = .next t) :
    runCommands (i :: is) s = runCommands is t := by
  simp [runCommands, first]

/-- One piece of WRITES absorbs its bytes and answers OK (rules R82, R203). -/
theorem exec_writeOf (s : State) (piece : List Byte) (short : piece.length ≤ 4) (active : s.constructed = true)
    (room : s.len.toNat + piece.length ≤ 2 ^ 61 - 1) :
    exec (writeOf piece) s = .next ((s.absorb piece).respond .ok []) := by
  have count : (BitVec.ofNat 8 piece.length).toNat = piece.length := by simp; omega
  have run := exec_write_of_room s (BitVec.ofNat 8 piece.length) (packBytes piece) active
    (by rwa [count]) (by rwa [count])
  rwa [messageBytes_packBytes piece short] at run

/-- Absorbing does not look at the responses returned before it. -/
theorem absorb_respond (s : State) (st : Status) (ws : List Word) (bytes : List Byte) :
    (s.respond st ws).absorb bytes = (s.absorb bytes).respond st ws := by
  have moved := absorb_hostSide s s.inputs (s.respond st ws).responses bytes
  exact moved.trans (by simp [State.respond])

/-- WRITES absorbs its byte string, with one OK a command (rules R82, R203). -/
theorem runCommands_writesOf (m : List Byte) (s : State) (active : s.constructed = true)
    (room : s.len.toNat + m.length ≤ 2 ^ 61 - 1) :
    runCommands (writesOf m) s =
      .next ({ s.absorb m with responses := s.responses ++ (writesOf m).map fun _ => okEmpty } : State) := by
  by_cases done : m = []
  · subst done; simp [runCommands]
  · have cut : m.take 4 ++ m.drop 4 = m := List.take_append_drop 4 m
    have lengths : (m.take 4).length + (m.drop 4).length = m.length := by rw [← List.length_append, cut]
    have some := List.length_pos_of_ne_nil done
    have first := exec_writeOf s (m.take 4) (List.length_take_le 4 m) active (by omega)
    have later := runCommands_writesOf (m.drop 4) ((s.absorb (m.take 4)).respond .ok []) (by simpa using active)
      (by rw [respond_len, absorb_len_toNat s _ (by omega)]; omega)
    have absorbed : (((s.absorb (m.take 4)).respond .ok []).absorb (m.drop 4)) = (s.absorb m).respond .ok [] := by
      rw [absorb_respond, ← absorb_append, cut]
    rw [writesOf_of_ne_nil m done, runCommands_cons _ first, later, absorbed]
    simp [State.respond, okEmpty]
termination_by m.length
decreasing_by simp; omega

/-- A block that holds a message takes WRITES to the longer message, one OK a command (rules R26, R208). -/
theorem runCommands_writesOf_of_holds {s : State} {m0 : List Byte} (held : Holds s m0) (m : List Byte)
    (room : m0.length + m.length ≤ 2 ^ 61 - 1) :
    ∃ t, runCommands (writesOf m) s = .next t ∧ Holds t (m0 ++ m) ∧ t.variant = s.variant ∧
      t.responses = s.responses ++ (writesOf m).map fun _ => okEmpty := by
  have ⟨active, _, len, _⟩ := held
  exact ⟨_, runCommands_writesOf m s active (by omega), (held.absorb m room).of_sameBlock ⟨rfl, rfl, rfl, rfl, rfl⟩,
    absorb_variant s m, rfl⟩

/-- What the live state finalizes to is the digest of the whole held message (rule R187). -/
theorem finalize_of_holds {s : State} {m : List Byte} (held : Holds s m) :
    finalize s.h s.buf s.len.toNat s.variant = messageDigest s.variant m := by
  obtain ⟨_, _, len, buf, h⟩ := held
  have zeros : padZeros m.length = padZeros s.buf.length := by
    rw [buf, List.length_drop]; unfold padZeros; omega
  have whole : compressAll (initialVector s.variant) (pad m m.length) = compressAll s.h (pad s.buf s.len.toNat) := by
    unfold pad
    rw [List.append_assoc, List.append_assoc, compressAll_append_tail, ← h, ← buf, zeros, len, List.append_assoc,
      List.append_assoc]
  rw [finalize, messageDigest, whole]

theorem exec_sum_of_holds {s : State} {m : List Byte} (held : Holds s m) :
    exec .sum s = .next (s.respond .ok (messageDigest s.variant m)) := by
  have ⟨active, limit, len, _⟩ := held
  have room : s.hasRoom 0 = true := (hasRoom_iff s 0).mpr (by omega)
  rw [← finalize_of_holds held]
  exact (requireConstructed_of_constructed s _ active).trans (if_pos room)

/-- The commands of HASH from any state (rules R83, R212). -/
theorem runCommands_hashOf (s : State) (v : Variant) (m : List Byte) (limit : m.length ≤ 2 ^ 61 - 1) :
    ∃ t, runCommands (hashOf v m) s = .next t ∧ Holds t m ∧ t.variant = v ∧
      t.responses = s.responses ++ [okEmpty] ++ (writesOf m).map (fun _ => okEmpty) ++
        [okWith (messageDigest v m)] := by
  have fresh : Holds (({ s.startMessage v with variant := v, constructed := true } : State).respond .ok []) [] :=
    holds_nil rfl rfl rfl rfl
  obtain ⟨t, written, held, variant, responses⟩ := runCommands_writesOf_of_holds fresh m (by simpa using limit)
  obtain rfl : t.variant = v := variant
  refine ⟨t.respond .ok (messageDigest t.variant m), ?_, held.of_sameBlock (sameBlock_respond t _ _), rfl, ?_⟩
  · rw [hashOf, runCommands_cons _ rfl, runCommands_append written, runCommands_cons _ (exec_sum_of_holds held)]
    rfl
  · rw [respond_responses, responses]
    rfl

end Sys2Proof.Machine

/-! ## The obligations -/

namespace Sys2Proof.Proofs

open Sys2Proof.Machine Sys2Proof.Safety

/-- Settles O2: the encoder read back by the decoder, and the decoder's inversion lemma put together again by
the fields. -/
theorem decodeEncodeRoundTrip : Obligations.DecodeEncodeRoundTrip := by
  refine ⟨decode_encode, ?_⟩
  intro r i good
  obtain ⟨wellFormed, _, _, _, carried⟩ := decode_eq_legal good
  exact ⟨wellFormed, encode_cmd_of_decode good, carried⟩

/-- Settles O3: each of the three forms of "legal" says that CMD is the word of a well-formed command. -/
theorem exactlyElevenLegalWords : Obligations.ExactlyElevenLegalWords := by
  intro cmd data
  have listed : (∃ i, decode ⟨cmd, data⟩ = .legal i) ↔ cmd ∈ legalWords :=
    (exists_decode_eq_legal_iff cmd data).trans (mem_legalWords_iff cmd).symm
  refine ⟨(exists_decode_eq_legal_iff cmd data).trans (not_malformedWord_iff cmd).symm, listed, ?_⟩
  intro unlisted s rest request
  cases verdict : decode ⟨cmd, data⟩ with
  | legal i => exact absurd (listed.mp ⟨i, verdict⟩) unlisted
  | illegal why => exact step_of_illegal request verdict

/-- Settles O4: the order is that of the decoder's branches, and `Decoded.withData` says what DATA can change. -/
theorem decodingOrderAndDataIndependence : Obligations.DecodingOrderAndDataIndependence := by
  refine ⟨?_, ?_, ?_, ?_⟩
  · intro r
    rw [decode_eq_illegal_opcode_iff, opcodeOf_eq_none_iff]
    rfl
  · intro r
    rw [decode_eq_illegal_reserved_iff, Ne, opcodeOf_eq_none_iff, not_not]
    rfl
  · intro r
    cases verdict : decode r with
    | legal i =>
      have word : r.cmd ∈ legalWords :=
        (mem_legalWords_iff r.cmd).mpr ⟨i, (decode_eq_legal verdict).1, encode_cmd_of_decode verdict⟩
      exact .inl ⟨word, i, rfl⟩
    | illegal why => cases why <;> simp
  · intro cmd d1 d2
    rw [decode_withData cmd d1 d2]
    cases decode ⟨cmd, d1⟩ with
    | legal i => cases i <;> rfl
    | illegal why => rfl

/-- Settles O6: the two requests decode alike, and a WRITE reads the same message bytes of both. -/
theorem onlyMessageBytesOfDataAreRead : Obligations.OnlyMessageBytesOfDataAreRead := by
  intro s rest cmd d1 d2 agree
  rw [step_of_request _ ⟨cmd, d1⟩ rest rfl, step_of_request _ ⟨cmd, d2⟩ rest rfl]
  exact execRequest_congr_data cmd d1 d2 _ fun write => messageBytes_congr _ d1 d2 (agree write)

/-- Settles O22: the commands run one after another: INIT holds the empty message, WRITES appends `m`, and SUM
answers the digest of what is held. -/
theorem hashAnswersMessageDigest : Obligations.HashAnswersMessageDigest := by
  intro s v m limit
  obtain ⟨t, run, held, variant, responses⟩ := runCommands_hashOf s v m limit
  refine ⟨withInputs [] t, ?_, held.of_sameBlock (sameBlock_inputs t []), variant, responses⟩
  rw [issue_eq_runCommands _ s (decode_encode_hashOf v m), run]
  rfl

/-- Settles O31: a malformed request answers ILLEGAL; a decoded one answers what `Effect.answer` says of its command. -/
theorem oneResponsePerRequest : Obligations.OneResponsePerRequest := by
  intro s t r rest request next
  cases verdict : decode r with
  | illegal why =>
    rw [step_of_illegal request verdict] at next
    cases next
    have illegal : IllegalRequest s r.cmd := .inl (malformedWord_of_decode verdict)
    exact ⟨rfl, illegalEmpty, rfl, by simp [illegalEmpty], fun _ => rfl, fun legal => absurd illegal legal⟩
  | legal i =>
    have effect := step_effect_of_legal next request verdict
    have condition := illegalRequest_iff_of_decode s verdict
    refine ⟨effect.inputs_eq, ?_⟩
    obtain ⟨premature, answered⟩ | ⟨legal, ws, answered, length⟩ := effect.answer (decode_eq_legal verdict).1
    · exact ⟨illegalEmpty, answered, by simp [illegalEmpty], fun _ => rfl,
        fun legal => absurd (condition.mpr premature) legal⟩
    · have table := payloadLength_eq_of_encode s.variant (encode_cmd_of_decode verdict)
      exact ⟨okWith ws, answered, length.trans_le (payloadLength_le _ i),
        fun illegal => absurd (condition.mp illegal) legal, fun _ => ⟨rfl, length.trans table⟩⟩

/-- Settles O53: command `j` packs the piece of at most four bytes at `4j`. -/
theorem writesExpansion : Obligations.WritesExpansion := by
  refine ⟨?_, by decide⟩
  intro s
  refine ⟨writesOf_length s, ?_⟩
  intro j below
  have length := piece_length s j
  refine ⟨packBytes ((s.drop (4 * j)).take 4), ?_, ?_, ?_⟩
  · rw [writesOf_getElem? s j below, writeOf, length]
  · rw [← length]
    exact messageBytes_packBytes _ (List.length_take_le _ _)
  · intro i beyond inWord
    rw [packBytes_extract _ i inWord]
    exact List.getD_eq_default _ _ (length.trans_le beyond)

/-- Settles O5: closed examples, evaluated. -/
theorem encodingExamples : Obligations.EncodingExamples := by
  unfold Obligations.EncodingExamples
  decide

/-- Settles O54: WRITE's word is the one with operands in it; the others are closed. -/
theorem assemblerLines : Obligations.AssemblerLines := by
  refine ⟨rfl, rfl, rfl, ?_, rfl, rfl, rfl, fun _ _ => rfl⟩
  intro n d
  rw [← encode_write_cmd n d]
  rfl

end Sys2Proof.Proofs
end

section
/-! The word/block codec on whole blocks and on the digest (40_codec.md rules R102, R103, R105, R106). -/

/-! ## Whole words (rules R102, R103) -/

namespace Sys2Proof.Machine

/-- WordsToBytes undoes BlockToWords on a whole number of words; BlockToWords would drop bytes left over. -/
theorem wordsToBytes_blockToWords :
    ∀ bytes : List Byte, bytes.length % 4 = 0 → wordsToBytes (blockToWords bytes) = bytes
  | [], _ => rfl
  | [_], whole | [_, _], whole | [_, _, _], whole => absurd whole (by simp)
  | b0 :: b1 :: b2 :: b3 :: rest, whole => by
    have wholeRest : rest.length % 4 = 0 := by
      simp only [List.length_cons] at whole
      omega
    rw [blockToWords_cons, wordsToBytes_cons, wordToBytes_bytesToWord, wordsToBytes_blockToWords rest wholeRest]
    rfl

end Sys2Proof.Machine

/-! ## The obligations -/

namespace Sys2Proof.Proofs

open Sys2Proof.Machine

/-- Settles O41: a word is the number its four bytes spell, and a block of 64 bytes is a whole number of words. -/
theorem codecLaws : Obligations.CodecLaws :=
  ⟨fun _ _ _ _ _ bytes => bytesToWord_of_wordToBytes bytes, wordToBytes_bytesToWord,
    fun block full => wordsToBytes_blockToWords block (by rw [full])⟩

/-- Settles O43: the digest has eight words or seven, of four bytes each. -/
theorem digestTruncation : Obligations.DigestTruncation := by
  refine ⟨fun s => ⟨rfl, rfl⟩, fun s v => ⟨rfl, ?_⟩⟩
  rw [digestBytes, wordsToBytes_length, digestWords_length]
  cases v <;> rfl

end Sys2Proof.Proofs
end

section

/-! The compression core: its word functions bit by bit, the roots behind its constants, the schedule word by word,
and Compress round by round (41_compression.md rules R121 to R134). -/

/-! ## The word functions, bit by bit (rules R121 to R128) -/

namespace Sys2Proof.Machine

/-- ROTR is the library's rotation. -/
theorem rotr_eq_rotateRight {n : Nat} (below : n < 32) (x : Word) : rotr n x = x.rotateRight n := by
  rw [rotr, BitVec.rotateRight_def, Nat.mod_eq_of_lt below]

/-- Bit i of ROTR^n(x) is bit (i + n) mod 32 of x (rule R121). -/
theorem getLsbD_rotr {n : Nat} (below : n < 32) (x : Word) {i : Nat} (bit : i < 32) :
    (rotr n x).getLsbD i = x.getLsbD ((i + n) % 32) := by
  rw [rotr_eq_rotateRight below, BitVec.getLsbD_rotateRight_of_lt below]
  by_cases low : i < 32 - n
  · have place : (i + n) % 32 = n + i := by omega
    simp [low, place]
  · have place : (i + n) % 32 = i - (32 - n) := by omega
    simp [low, place, bit]

/-- Bit i of SHR^n(x) is bit i + n of x, where there is one (rule R122). -/
theorem getLsbD_shr (n : Nat) (x : Word) (i : Nat) :
    (shr n x).getLsbD i = (decide (i + n < 32) && x.getLsbD (i + n)) := by
  rw [shr, BitVec.getLsbD_ushiftRight, Nat.add_comm n i]
  by_cases inside : i + n < 32
  · simp [inside]
  · simp [inside, BitVec.getLsbD_of_ge x (i + n) (by omega)]

theorem rotr_allOnes {n : Nat} (below : n < 32) : rotr n (BitVec.allOnes 32) = BitVec.allOnes 32 := by
  apply BitVec.eq_of_getLsbD_eq
  intro i bit
  rw [getLsbD_rotr below _ bit, BitVec.getLsbD_allOnes, BitVec.getLsbD_allOnes]
  simp [bit, Nat.mod_lt]

theorem rotr_zero (n : Nat) : rotr n 0#32 = 0#32 := by simp [rotr]

/-- SHR^n of the word of all ones leaves 32 − n ones (rule R122). -/
theorem shr_allOnes_toNat (n : Nat) : (shr n (BitVec.allOnes 32)).toNat = 2 ^ (32 - n) - 1 := by
  apply Nat.eq_of_testBit_eq
  intro i
  rw [shr, BitVec.toNat_ushiftRight, BitVec.toNat_allOnes, Nat.testBit_shiftRight, Nat.testBit_two_pow_sub_one,
    Nat.testBit_two_pow_sub_one, decide_eq_decide]
  omega

/-- Each bit of Ch is y's where x's is 1 and z's where it is 0 (rule R123). -/
theorem getLsbD_ch (x y z : Word) {i : Nat} (bit : i < 32) :
    (ch x y z).getLsbD i = if x.getLsbD i then y.getLsbD i else z.getLsbD i := by
  simp only [ch, BitVec.getLsbD_xor, BitVec.getLsbD_and, BitVec.getLsbD_not, bit]
  cases x.getLsbD i <;> simp

/-- Each bit of Maj is 1 exactly when at least two of the three are (rule R124). -/
theorem getLsbD_maj (x y z : Word) (i : Nat) :
    (maj x y z).getLsbD i = decide (2 ≤ (x.getLsbD i).toNat + (y.getLsbD i).toNat + (z.getLsbD i).toNat) := by
  simp only [maj, BitVec.getLsbD_xor, BitVec.getLsbD_and]
  cases x.getLsbD i <;> cases y.getLsbD i <;> cases z.getLsbD i <;> rfl

/-- Ch with inclusive or (rule R136): the two sides never have a 1 in the same place. -/
theorem ch_eq_or (x y z : Word) : ch x y z = (x &&& y) ||| (~~~x &&& z) := by
  apply BitVec.eq_of_getLsbD_eq
  intro i bit
  simp only [getLsbD_ch x y z bit, BitVec.getLsbD_or, BitVec.getLsbD_and, BitVec.getLsbD_not, bit]
  cases x.getLsbD i <;> simp

theorem ch_allOnes (y z : Word) : ch (BitVec.allOnes 32) y z = y := by
  rw [ch, BitVec.allOnes_and, BitVec.not_allOnes, BitVec.zero_and, BitVec.xor_zero]

theorem ch_zero (y z : Word) : ch 0#32 y z = z := by
  rw [ch, BitVec.zero_and, BitVec.not_zero, BitVec.allOnes_and, BitVec.zero_xor]

/-- Maj with inclusive or (rule R136). -/
theorem maj_eq_or (x y z : Word) : maj x y z = (x &&& y) ||| (z &&& (x ||| y)) := by
  apply BitVec.eq_of_getLsbD_eq
  intro i _
  simp only [getLsbD_maj, BitVec.getLsbD_or, BitVec.getLsbD_and]
  cases x.getLsbD i <;> cases y.getLsbD i <;> cases z.getLsbD i <;> rfl

theorem maj_self_left (x z : Word) : maj x x z = x := by
  rw [maj, BitVec.and_self, BitVec.xor_assoc, BitVec.xor_self, BitVec.xor_zero]

theorem maj_self_right (x y : Word) : maj x y y = y := by
  rw [maj, BitVec.and_self, BitVec.xor_self, BitVec.zero_xor]

end Sys2Proof.Machine

namespace Sys2Proof.Safety

open Sys2Proof.Machine

/-! ## The round constants (rule R129) -/

/-- Trial division by the numbers from 2 up finds the primes. -/
theorem mem_firstPrimes_iff (p : Nat) : p ∈ firstPrimes ↔ p ≤ 311 ∧ Nat.Prime p := by
  have bound : p < 312 ↔ p ≤ 311 := Nat.lt_succ_iff
  have divides (d : Nat) : (d < p → d < 2 ∨ p % d ≠ 0) ↔ (2 ≤ d → d < p → ¬ d ∣ p) := by
    rw [Nat.dvd_iff_mod_eq_zero, ← Nat.not_lt, Ne]
    tauto
  simp only [firstPrimes, List.mem_filter, List.mem_range, Bool.and_eq_true, List.all_eq_true, Bool.or_eq_true,
    decide_eq_true_eq, divides, bound, Nat.prime_def_lt']

/-- The low 32 bits of the integer cube root of 2^96·p are the first 32 fractional bits of the cube root of p (`p` below
4096, so that its cube root is below 16). -/
theorem isCubeRootFraction_nthRoot (p : Nat) (small : p < 4096) :
    IsCubeRootFraction p (Nat.nthRoot 3 (p * 2 ^ 96) % 2 ^ 32) := by
  have below : Nat.nthRoot 3 (p * 2 ^ 96) < 16 * 2 ^ 32 := (Nat.nthRoot_lt_iff (by decide)).mpr (by omega)
  have split : Nat.nthRoot 3 (p * 2 ^ 96) / 2 ^ 32 * 2 ^ 32 + Nat.nthRoot 3 (p * 2 ^ 96) % 2 ^ 32 =
      Nat.nthRoot 3 (p * 2 ^ 96) := Nat.div_add_mod' _ _
  refine ⟨Nat.nthRoot 3 (p * 2 ^ 96) / 2 ^ 32, by omega, Nat.mod_lt _ (by decide), ?_, ?_⟩
  · rw [split]; exact Nat.pow_nthRoot_le (.inl (by decide))
  · rw [split]; exact Nat.lt_pow_nthRoot_add_one (by decide) _

theorem firstPrimes_getD_lt : ∀ t < 64, firstPrimes.getD t 0 < 4096 := by decide +kernel

theorem roundConstant_eq_nthRoot : ∀ t < 64, (roundConstant t).toNat =
    Nat.nthRoot 3 (firstPrimes.getD t 0 * 2 ^ 96) % 2 ^ 32 := by decide +kernel

end Sys2Proof.Safety

namespace Sys2Proof.Machine

/-! ## The schedule, word by word (rule R130) -/

/-- Word t of a block is its bytes 4t to 4t + 3, big-endian (rule R102). -/
theorem blockToWords_getElem? (bytes : List Byte) (t : Nat) (inside : 4 * t + 3 < bytes.length) :
    (blockToWords bytes)[t]? = some (bytesToWord (bytes.getD (4 * t) 0) (bytes.getD (4 * t + 1) 0)
      (bytes.getD (4 * t + 2) 0) (bytes.getD (4 * t + 3) 0)) := by
  induction t generalizing bytes with
  | zero =>
    match bytes, inside with
    | _ :: _ :: _ :: _ :: _, _ => rfl
  | succ t ih =>
    match bytes, inside with
    | _ :: _ :: _ :: _ :: rest, inside =>
      have tail : 4 * t + 3 < rest.length := by
        simp only [List.length_cons] at inside
        omega
      rw [blockToWords_cons, List.getElem?_cons_succ, ih rest tail]
      rfl

/-- A stage: the block's 16 words and the `k` computed so far. -/
theorem stage_length (block : List Byte) (full : block.length = 64) (k : Nat) :
    (extendSchedule k (blockToWords block).reverse).length = 16 + k := by
  rw [extendSchedule_length, List.length_reverse, blockToWords_length, full]

/-- The schedule from its oldest word is what has been made after any `k` of its 48 computed words. -/
theorem schedule_getElem?_eq_stage (block : List Byte) (full : block.length = 64) {k t : Nat} (stage : k ≤ 48)
    (made : t < 16 + k) :
    (schedule block)[t]? = (extendSchedule k (blockToWords block).reverse).reverse[t]? := by
  obtain ⟨j, rest⟩ : ∃ j, Config.rounds - 16 = k + j := Nat.exists_eq_add_of_le stage
  have old : t < (blockToWords block).reverse.length + k := by
    rw [← extendSchedule_length, stage_length block full]
    exact made
  rw [schedule, rest, extendSchedule_reverse_getElem? k j _ t old]

/-- The same from the newest word of the stage. -/
theorem stage_getD (block : List Byte) (full : block.length = 64) {k j : Nat} (stage : k ≤ 48)
    (made : j < 16 + k) :
    (extendSchedule k (blockToWords block).reverse).getD j 0 = (schedule block).getD (16 + k - 1 - j) 0 := by
  have length := stage_length block full k
  rw [List.getD_eq_getElem?_getD, List.getD_eq_getElem?_getD,
    schedule_getElem?_eq_stage block full stage (by omega), List.getElem?_reverse (by omega), length]
  congr 3
  omega

/-- The first 16 words are the block's. -/
theorem schedule_getElem?_of_lt (block : List Byte) (full : block.length = 64) {t : Nat} (first : t < 16) :
    (schedule block)[t]? = (blockToWords block)[t]? := by
  rw [schedule_getElem?_eq_stage block full (k := 0) (by decide) first, extendSchedule, List.reverse_reverse]

/-- Every later word is the recurrence over the words before it. -/
theorem schedule_getElem?_of_ge (block : List Byte) (full : block.length = 64) {t : Nat} (later : 16 ≤ t)
    (inside : t < 64) :
    (schedule block)[t]? = some (smallSigma1 ((schedule block).getD (t - 2) 0) + (schedule block).getD (t - 7) 0 +
      smallSigma0 ((schedule block).getD (t - 15) 0) + (schedule block).getD (t - 16) 0) := by
  obtain ⟨k, rfl⟩ := Nat.exists_eq_add_of_le later
  have length : (extendSchedule k (blockToWords block).reverse).reverse.length = 16 + k := by
    rw [List.length_reverse, stage_length block full]
  have newest :
      (schedule block)[16 + k]? = some (nextScheduleWord (extendSchedule k (blockToWords block).reverse)) := by
    rw [schedule_getElem?_eq_stage block full (k := k + 1) (by omega) (by omega), extendSchedule_succ,
      List.reverse_cons, ← length, List.getElem?_concat_length]
  have before (j : Nat) (near : j < 16) := stage_getD block full (k := k) (j := j) (by omega) (by omega)
  rw [newest, nextScheduleWord, before 1 (by decide), before 6 (by decide), before 14 (by decide),
    before 15 (by decide)]
  rfl

/-- Zeros extend to zeros: both small sigmas of 0 are 0. -/
theorem extendSchedule_replicate_zero (k n : Nat) :
    extendSchedule k (List.replicate n 0) = List.replicate (n + k) 0 := by
  induction k with
  | zero => rfl
  | succ k ih =>
    have next : nextScheduleWord (List.replicate (n + k) 0) = 0 := by
      simp only [nextScheduleWord, List.getD_eq_getElem?_getD, List.getElem?_getD_replicate_default_eq]
      rfl
    rw [extendSchedule_succ, ih, next]
    rfl

/-- The all-zero block has the all-zero schedule (rule R130). -/
theorem schedule_replicate_zero : schedule (List.replicate 64 0) = List.replicate 64 0 := by
  have words : (blockToWords (List.replicate 64 0)).reverse = List.replicate 16 0 := by decide
  rw [schedule, words, extendSchedule_replicate_zero]
  exact List.reverse_replicate

/-! ## The rounds (rules R131 to R134) -/

/-- A word looked up inside a list is its `getD`, the form the rounds read W[t] and K[t] in. -/
theorem getElem?_eq_some_getD (ws : List Word) {t : Nat} (inside : t < ws.length) : ws[t]? = some (ws.getD t 0) := by
  rw [List.getD_eq_getElem _ _ inside, List.getElem?_eq_getElem inside]

end Sys2Proof.Machine

/-! ## The obligations -/

namespace Sys2Proof.Proofs

open Sys2Proof.Machine Sys2Proof.Safety

/-- Settles O44: the bits of ROTR and SHR, the words of all ones and of zeros, and the closed examples. -/
theorem rotationAndShiftBits : Obligations.RotationAndShiftBits := by
  refine ⟨fun n x _ below i bit => ?_, fun n _ below => ?_, by decide⟩
  · exact ⟨getLsbD_rotr below x bit, getLsbD_shr n x i⟩
  · exact ⟨rotr_allOnes below, rotr_zero n, shr_allOnes_toNat n⟩

/-- Settles O45: the bits of Ch and Maj, which the formulas with inclusive or have too, and the corner cases. -/
theorem chooseAndMajorityBits : Obligations.ChooseAndMajorityBits :=
  ⟨fun x y z i bit => ⟨getLsbD_ch x y z bit, getLsbD_maj x y z i⟩,
    fun x y z => ⟨ch_eq_or x y z, maj_eq_or x y z⟩,
    fun x y z => ⟨ch_allOnes y z, ch_zero y z, maj_self_left x z, maj_self_right x y⟩⟩

/-- Settles O46: each sigma's bit is the exclusive or of the bits of its rotations and its shift. -/
theorem sigmaBits : Obligations.SigmaBits := by
  intro x i bit
  refine ⟨?_, ?_, ?_, ?_⟩
  · simp only [bigSigma0, BitVec.getLsbD_xor, getLsbD_rotr, bit, Nat.reduceLT]
  · simp only [bigSigma1, BitVec.getLsbD_xor, getLsbD_rotr, bit, Nat.reduceLT]
  · simp only [smallSigma0, BitVec.getLsbD_xor, getLsbD_rotr, getLsbD_shr, bit, Nat.reduceLT]
  · simp only [smallSigma1, BitVec.getLsbD_xor, getLsbD_rotr, getLsbD_shr, bit, Nat.reduceLT]

/-- Settles O49: the schedule is the last stage of a list that grows by one word at a time and never changes a word it
has. -/
theorem scheduleRecurrence : Obligations.ScheduleRecurrence := by
  intro block full
  refine ⟨schedule_length block full, fun t first => ?_, fun t => schedule_getElem?_of_ge block full, ?_⟩
  · rw [schedule_getElem?_of_lt block full first, blockToWords_getElem? block t (by omega)]
  · rintro rfl t inside
    rw [schedule_replicate_zero, List.getElem?_replicate_of_lt inside]

/-- Settles O50: v(t) is the working variables after the first t rounds. -/
theorem compressIsSixtyFourRounds : Obligations.CompressIsSixtyFourRounds := by
  intro s block full
  refine ⟨fun t => runRounds t (schedule block) (loadWorking s), runRounds_zero _ _, fun t inside => ?_, rfl⟩
  have word := getElem?_eq_some_getD (schedule block) (t := t) (by rw [schedule_length block full]; exact inside)
  have constant := getElem?_eq_some_getD roundConstants (t := t) inside
  exact ⟨_, word, _, constant, _, _, rfl, rfl, runRounds_succ t _ _⟩

/-- Settles O48: each round constant is the low half of an integer cube root. -/
theorem roundConstantsAreCubeRootBits : Obligations.RoundConstantsAreCubeRootBits := by
  refine ⟨by decide +kernel, mem_firstPrimes_iff, rfl, fun t inside => ?_⟩
  rw [roundConstant_eq_nthRoot t inside]
  exact isCubeRootFraction_nthRoot _ (firstPrimes_getD_lt t inside)

end Sys2Proof.Proofs
end

section
/-! The padding encoder: the padded string as its blocks and as its fields, and the digest SUM computes from it
(42_padding.md rules R180 to R187). -/

namespace Sys2Proof.Machine

/-! ## Blocks of a string (rule R185) -/

theorem fullBlocks_of_block (block : List Byte) (full : block.length = 64) : fullBlocks block = [block] := by
  have blocks := fullBlocks_append block [] full
  rwa [List.append_nil, fullBlocks_of_short [] (by simp)] at blocks

/-- Every block of any string is 64 bytes long; bytes left over at the end are in none. -/
theorem length_of_mem_fullBlocks {p block : List Byte} (member : block ∈ fullBlocks p) : block.length = 64 := by
  obtain ⟨j, inside, rfl⟩ := List.mem_map.mp member
  have inside : j < p.length / 64 := List.mem_range.mp inside
  simp only [List.length_take, List.length_drop, Config.blockBytes]
  omega

/-! ## The padded string as one block or two (rules R182, R183) -/

theorem pad_of_le (tail : List Byte) (total : Nat) (fits : tail.length ≤ 55) :
    pad tail total =
      tail ++ [0x80#8] ++ List.replicate (55 - tail.length) 0x00#8 ++ u64ToBytes (BitVec.ofNat 64 (8 * total)) := by
  rw [pad, padZeros_of_le _ fits]

/-- From 56 bytes on the zeros pass the end of the first block: 63 - r of them are in it, 56 in the second. -/
theorem pad_of_gt (tail : List Byte) (total : Nat) (spills : 56 ≤ tail.length) (short : tail.length ≤ 63) :
    pad tail total = (tail ++ [0x80#8] ++ List.replicate (63 - tail.length) 0x00#8) ++
      (List.replicate 56 0x00#8 ++ u64ToBytes (BitVec.ofNat 64 (8 * total))) := by
  have zeros : padZeros tail.length = (63 - tail.length) + 56 := by
    rw [padZeros_of_gt _ spills short]
    omega
  rw [pad, zeros, List.replicate_add]
  simp only [List.append_assoc]

theorem pad_length_eq_ite (tail : List Byte) (total : Nat) (short : tail.length ≤ 63) :
    (pad tail total).length = if tail.length ≤ 55 then 64 else 128 := by
  rw [pad_length]
  split
  case isTrue fits =>
    rw [padZeros_of_le _ fits]
    omega
  case isFalse spills =>
    rw [padZeros_of_gt _ (by omega) short]
    omega

theorem fullBlocks_pad_of_le (tail : List Byte) (total : Nat) (fits : tail.length ≤ 55) :
    fullBlocks (pad tail total) = [pad tail total] :=
  fullBlocks_of_block _ ((pad_length_eq_ite tail total (by omega)).trans (if_pos fits))

theorem fullBlocks_pad_of_gt (tail : List Byte) (total : Nat) (spills : 56 ≤ tail.length) (short : tail.length ≤ 63) :
    fullBlocks (pad tail total) =
      [tail ++ [0x80#8] ++ List.replicate (63 - tail.length) 0x00#8,
       List.replicate 56 0x00#8 ++ u64ToBytes (BitVec.ofNat 64 (8 * total))] := by
  have first : (tail ++ [0x80#8] ++ List.replicate (63 - tail.length) 0x00#8).length = 64 := by simp; omega
  have second : (List.replicate 56 0x00#8 ++ u64ToBytes (BitVec.ofNat 64 (8 * total))).length = 64 := by simp
  rw [pad_of_gt tail total spills short, fullBlocks_append _ _ first, fullBlocks_of_block _ second]

/-! ## The fields of the padded string (rules R181, R184) -/

theorem pad_take_marker (tail : List Byte) (total : Nat) :
    (pad tail total).take (tail.length + 1) = tail ++ [0x80#8] := by
  rw [pad, List.append_assoc (tail ++ [0x80#8])]
  exact List.take_left' (by simp)

theorem pad_take_length_sub (tail : List Byte) (total : Nat) :
    (pad tail total).take ((pad tail total).length - 8) =
      tail ++ [0x80#8] ++ List.replicate (padZeros tail.length) 0x00#8 :=
  List.take_left' (by simp [pad_length]; omega)

theorem pad_drop_length_sub (tail : List Byte) (total : Nat) :
    (pad tail total).drop ((pad tail total).length - 8) = u64ToBytes (BitVec.ofNat 64 (8 * total)) :=
  List.drop_left' (by simp [pad_length]; omega)

theorem pad_zeros_between (tail : List Byte) (total : Nat) :
    ((pad tail total).take ((pad tail total).length - 8)).drop (tail.length + 1) =
      List.replicate (padZeros tail.length) 0x00#8 := by
  rw [pad_take_length_sub]
  exact List.drop_left' (by simp)

/-- In the encoder's domain 8·L fits the 64-bit length field, so no bit of it is lost (rules R180, R184). -/
theorem bigEndian_lengthField (total : Nat) (limit : total ≤ 2 ^ 61 - 1) :
    bigEndian (u64ToBytes (BitVec.ofNat 64 (8 * total))) = 8 * total := by
  rw [bigEndian_u64ToBytes, BitVec.toNat_ofNat]
  exact Nat.mod_eq_of_lt (by omega)

end Sys2Proof.Machine

/-! ## The obligations -/

namespace Sys2Proof.Proofs

open Sys2Proof.Machine

/-- Settles O23: what the live state finalizes to is the digest of the held message, and a state that holds one has a
length in the encoder's domain. -/
theorem sumIsDigestOfHeldMessage : Obligations.SumIsDigestOfHeldMessage :=
  fun _ _ held => exec_sum_of_holds held

/-- Settles O51: the padded string is cut after its 64th byte, which it reaches before the length field exactly when
the tail has 56 bytes or more. -/
theorem paddingBlocks : Obligations.PaddingBlocks := by
  refine ⟨fun tail total fits => ?_, fullBlocks_pad_of_gt, fun tail total short => ?_⟩
  · rw [fullBlocks_pad_of_le tail total fits, pad_of_le tail total fits]
  · exact ⟨pad_length_eq_ite tail total short, fun _ => length_of_mem_fullBlocks⟩

/-- Settles O52: the padded string taken apart into tail and marker, zeros, and length field. -/
theorem paddingLengthField : Obligations.PaddingLengthField := by
  intro tail total short limit
  refine ⟨pad_take_marker tail total, ?_, fun b between => ?_, pad_length_mod tail total, ?_⟩
  · rw [pad_drop_length_sub]
    exact bigEndian_lengthField total limit
  · rw [pad_zeros_between] at between
    exact List.eq_of_mem_replicate between
  · rw [pad_length_eq_ite tail total short]
    split <;> decide

end Sys2Proof.Proofs
end

section

/-! The commands (43_commands.md): what each makes of a constructed block and of its own word with any DATA, and the
laws of command sequences (rules R200 to R211). -/

namespace Sys2Proof

/-- The word of a well-formed command decodes to it with any DATA, which only a WRITE takes over (rules R72, R79). -/
theorem decode_encode_cmd (i : Instr) (legal : i.wellFormed = true) (data : Word) :
    decode ⟨(encode i).cmd, data⟩ = .legal (i.withData data) := by
  rw [decode_withData _ (encode i).data, decode_encode i legal]
  rfl

end Sys2Proof

namespace Sys2Proof.Machine

open Sys2Proof.Safety

/-! ## One command (rules R200 to R207) -/

/-- A step on the word of a well-formed command runs it, whatever DATA is (rules R72, R200). -/
theorem step_of_word {s : State} {cmd data : Word} {rest : List Input} (i : Instr)
    (request : s.inputs = .request ⟨cmd, data⟩ :: rest) (legal : i.wellFormed = true) (word : (encode i).cmd = cmd) :
    step s = exec (i.withData data) ({ s with inputs := rest } : State) := by
  subst word
  rw [step_of_request s _ rest request, execRequest_of_legal _ _ _ (decode_encode_cmd i legal data)]

/-- SUM within the length limit answers what the live state finalizes to (rule R205). -/
theorem exec_sum_of_limit (s : State) (active : s.constructed = true) (limit : s.len.toNat ≤ 2 ^ 61 - 1) :
    exec .sum s = .next (s.respond .ok (finalize s.h s.buf s.len.toNat s.variant)) :=
  (requireConstructed_of_constructed s _ active).trans (if_pos ((hasRoom_iff s 0).mpr limit))

theorem exec_size_of_constructed (s : State) (active : s.constructed = true) :
    exec .size s = .next (s.respond .ok [digestSizeWord s.variant]) :=
  requireConstructed_of_constructed s _ active

theorem exec_blocksize_of_constructed (s : State) (active : s.constructed = true) :
    exec .blocksize s = .next (s.respond .ok [blockSizeWord]) :=
  requireConstructed_of_constructed s _ active

/-- The answer of SUM, SIZE and BLOCKSIZE is fixed by the block: what was answered before does not enter it (rules R205
to R207). -/
theorem exec_query_answer (i : Instr) (s : State) (query : i = .sum ∨ i = .size ∨ i = .blocksize)
    (active : s.constructed = true) (limit : s.len.toNat ≤ 2 ^ 61 - 1) :
    ∃ answer : Response, ∀ before : List Response,
      exec i ({ s with responses := before } : State) =
        .next ({ s with responses := before ++ [answer] } : State) := by
  obtain rfl | rfl | rfl := query
  · exact ⟨okWith (finalize s.h s.buf s.len.toNat s.variant),
      fun before => exec_sum_of_limit { s with responses := before } active limit⟩
  · exact ⟨okWith [digestSizeWord s.variant],
      fun before => exec_size_of_constructed { s with responses := before } active⟩
  · exact ⟨okWith [blockSizeWord],
      fun before => exec_blocksize_of_constructed { s with responses := before } active⟩

/-! ## Absorbed bytes, the whole next state (rules R203, R204) -/

/-- Absorbing writes H, BUF and LEN alone, and LEN by the number of bytes. -/
theorem absorb_eq (s : State) (bytes : List Byte) :
    s.absorb bytes = ({ s with h := (s.absorb bytes).h, buf := (s.absorb bytes).buf,
                               len := BitVec.ofNat 64 (s.len.toNat + bytes.length) } : State) := by
  have len : (s.absorb bytes).len = BitVec.ofNat 64 (s.len.toNat + bytes.length) := by
    rw [absorb_len, BitVec.ofNat_add, BitVec.ofNat_toNat, BitVec.setWidth_eq]
  obtain ⟨constructed, variant, inputs, responses⟩ := absorb_frame s bytes
  rw [← len, ← constructed, ← variant, ← inputs, ← responses]

theorem absorb_eq_of_room (s : State) (bytes : List Byte) (room : s.buf.length + bytes.length < 64) :
    s.absorb bytes = ({ s with buf := s.buf ++ bytes,
                               len := BitVec.ofNat 64 (s.len.toNat + bytes.length) } : State) := by
  obtain ⟨h, buf⟩ := absorb_of_room s bytes room
  rw [absorb_eq, h, buf]

theorem absorb_eq_of_spill (s : State) (bytes : List Byte) (room : s.buf.length < 64)
    (full : 64 ≤ s.buf.length + bytes.length) (few : bytes.length < 64) :
    s.absorb bytes = ({ s with h := compress s.h ((s.buf ++ bytes).take 64), buf := (s.buf ++ bytes).drop 64,
                               len := BitVec.ofNat 64 (s.len.toNat + bytes.length) } : State) := by
  obtain ⟨h, buf⟩ := absorb_of_spill s bytes room full few
  rw [absorb_eq, h, buf]

/-! ## Padding the live state (rules R183, R185) -/

theorem finalize_of_le (h : DigestState) (buf : List Byte) (total : Nat) (v : Variant) (fits : buf.length ≤ 55) :
    finalize h buf total v = digestWords (compress h (buf ++ [0x80#8] ++ List.replicate (55 - buf.length) 0x00#8 ++
      u64ToBytes (BitVec.ofNat 64 (8 * total)))) v := by
  rw [finalize, compressAll, fullBlocks_pad_of_le buf total fits, pad_of_le buf total fits]
  rfl

theorem finalize_of_gt (h : DigestState) (buf : List Byte) (total : Nat) (v : Variant) (spills : 56 ≤ buf.length)
    (short : buf.length ≤ 63) :
    finalize h buf total v = digestWords
      (compress (compress h (buf ++ [0x80#8] ++ List.replicate (63 - buf.length) 0x00#8))
        (List.replicate 56 0x00#8 ++ u64ToBytes (BitVec.ofNat 64 (8 * total)))) v := by
  rw [finalize, compressAll, fullBlocks_pad_of_gt buf total spills short]
  rfl

/-! ## Sequences of commands (rules R208 to R210) -/

/-- Issuing well-formed commands is running them one after another. -/
theorem issue_of_runCommands {is : List Instr} {s t : State} (legal : ∀ i ∈ is, i.wellFormed = true)
    (run : runCommands is s = .next t) : issue is s = .next (withInputs [] t) := by
  rw [issue_eq_runCommands is s fun i listed => decode_encode i (legal i listed), run]
  rfl

theorem writesOf_sum_wellFormed (m : List Byte) : ∀ i ∈ writesOf m ++ [.sum], i.wellFormed = true :=
  List.forall_mem_append.mpr ⟨writesOf_wellFormed m, by simp [Instr.wellFormed]⟩

theorem hashOf_wellFormed (v : Variant) (m : List Byte) : ∀ i ∈ hashOf v m, i.wellFormed = true :=
  List.forall_mem_cons.mpr ⟨rfl, writesOf_sum_wellFormed m⟩

theorem init_writesOf_reset_wellFormed (v : Variant) (m : List Byte) :
    ∀ i ∈ [.init v] ++ writesOf m ++ [.reset], i.wellFormed = true :=
  List.forall_mem_append.mpr ⟨List.forall_mem_cons.mpr ⟨rfl, writesOf_wellFormed m⟩, by simp [Instr.wellFormed]⟩

/-- The block after absorbing is a matter of the block before it alone. -/
theorem absorb_sameBlock {s t : State} (same : SameBlock s t) (bytes : List Byte) :
    SameBlock (s.absorb bytes) (t.absorb bytes) := by
  obtain ⟨constructed, variant, h, buf, len⟩ := same
  have copy : t = ({ s with inputs := t.inputs, responses := t.responses } : State) := by
    rw [constructed, variant, h, buf, len]
  have moved := absorb_hostSide s t.inputs t.responses bytes
  rw [← copy] at moved
  rw [moved]
  exact ⟨rfl, rfl, rfl, rfl, rfl⟩

/-- To the block WRITES is absorbing its byte string (rules R82, R203). -/
theorem runCommands_writesOf_sameBlock (m : List Byte) (s : State) (active : s.constructed = true)
    (room : s.len.toNat + m.length ≤ 2 ^ 61 - 1) :
    ∃ t, runCommands (writesOf m) s = .next t ∧ SameBlock (s.absorb m) t :=
  ⟨_, runCommands_writesOf m s active room, rfl, rfl, rfl, rfl, rfl⟩

/-- Two WRITES absorb their byte strings one after the other (rule R208). -/
theorem runCommands_writesOf_append (m1 m2 : List Byte) (s : State) (active : s.constructed = true)
    (room : s.len.toNat + (m1 ++ m2).length ≤ 2 ^ 61 - 1) :
    ∃ t, runCommands (writesOf m1 ++ writesOf m2) s = .next t ∧ SameBlock (s.absorb (m1 ++ m2)) t := by
  rw [List.length_append] at room
  obtain ⟨t, first, same⟩ := runCommands_writesOf_sameBlock m1 s active (by omega)
  have ⟨active', _, _, _, len⟩ := same
  have counted : t.len.toNat = s.len.toNat + m1.length := by rw [← len, absorb_len_toNat s m1 (by omega)]
  obtain ⟨u, second, same'⟩ := runCommands_writesOf_sameBlock m2 t (by simpa [active] using active'.symm) (by omega)
  refine ⟨u, (runCommands_append first).trans second, ?_⟩
  rw [absorb_append]
  exact (absorb_sameBlock same m2).trans same'

/-- SUM answers alike on two blocks that agree (rule R205). -/
theorem exec_sum_of_sameBlock {s t : State} (same : SameBlock s t) (active : s.constructed = true)
    (limit : s.len.toNat ≤ 2 ^ 61 - 1) :
    exec .sum t = .next (t.respond .ok (finalize s.h s.buf s.len.toNat s.variant)) := by
  obtain ⟨constructed, variant, h, buf, len⟩ := same
  rw [variant, h, buf, len]
  exact exec_sum_of_limit t (constructed ▸ active) (len ▸ limit)

/-- The message held and the variant fix the block (rule R26). -/
theorem sameBlock_of_holds {s t : State} {m : List Byte} (held : Holds s m) (held' : Holds t m)
    (variant : s.variant = t.variant) : SameBlock s t := by
  obtain ⟨active, _, len, buf, h⟩ := held
  obtain ⟨active', _, len', buf', h'⟩ := held'
  exact ⟨active.trans active'.symm, variant, by rw [h, h', variant], buf.trans buf'.symm,
    BitVec.eq_of_toNat_eq (len.trans len'.symm)⟩

/-- WRITES and SUM on a block that holds a message: one OK a WRITE, then the digest of the longer message (rule R209). -/
theorem runCommands_writesOf_sum {s : State} {m0 : List Byte} (held : Holds s m0) (m : List Byte)
    (room : m0.length + m.length ≤ 2 ^ 61 - 1) :
    ∃ t, runCommands (writesOf m ++ [.sum]) s = .next t ∧ Holds t (m0 ++ m) ∧ t.variant = s.variant ∧
      t.responses = s.responses ++ (writesOf m).map (fun _ => okEmpty) ++
        [okWith (messageDigest s.variant (m0 ++ m))] := by
  obtain ⟨t, written, held', variant, responses⟩ := runCommands_writesOf_of_holds held m room
  refine ⟨t.respond .ok (messageDigest t.variant (m0 ++ m)), ?_, held'.of_sameBlock (sameBlock_respond t _ _),
    variant, ?_⟩
  · rw [runCommands_append written, runCommands_cons _ (exec_sum_of_holds held')]
    rfl
  · rw [respond_responses, responses, variant]
    rfl

/-- From any state INIT, WRITES x and RESET leave the fresh block of INIT (rules R201, R202, R210). -/
theorem runCommands_init_writesOf_reset (s : State) (v : Variant) (x : List Byte) (limit : x.length ≤ 2 ^ 61 - 1) :
    ∃ t, runCommands ([.init v] ++ writesOf x ++ [.reset]) s = .next t ∧ Holds t [] ∧ t.variant = v := by
  have fresh : Holds (({ s.startMessage v with variant := v, constructed := true } : State).respond .ok []) [] :=
    holds_nil rfl rfl rfl rfl
  obtain ⟨t, written, ⟨active, _⟩, variant, _⟩ := runCommands_writesOf_of_holds fresh x (by simpa using limit)
  refine ⟨(t.startMessage t.variant).respond .ok [], ?_, holds_nil active rfl rfl rfl, variant⟩
  rw [List.append_assoc, List.singleton_append, runCommands_cons _ rfl, runCommands_append written,
    runCommands_cons _ (exec_reset_of_constructed t active)]
  rfl

end Sys2Proof.Machine

/-! ## The obligations -/

namespace Sys2Proof.Proofs

open Sys2Proof.Machine Sys2Proof.Safety

/-- Settles O9: on a constructed block RESET assigns what INIT assigned; on any other it is ILLEGAL. -/
theorem resetRestoresPostConstructState : Obligations.ResetRestoresPostConstructState := by
  refine ⟨exec_reset_of_constructed, ?_, ?_, ?_⟩
  · intro s idle
    exact exec_of_unconstructed .reset s (by simp) idle
  · intro s d rest active request
    exact (step_of_word .reset request rfl rfl).trans (exec_reset_of_constructed _ active)
  · intro v s
    have alone : runCommands [.init v] s = .next _ := runCommands_cons [] rfl
    have once : runCommands [.init v, .reset] s = .next _ := runCommands_append alone
    have twice : runCommands [.init v, .reset, .reset] s = .next _ := runCommands_append once
    exact ⟨_, _, _, issue_of_runCommands (by simp [Instr.wellFormed]) alone,
      issue_of_runCommands (by simp [Instr.wellFormed]) once,
      issue_of_runCommands (by simp [Instr.wellFormed]) twice,
      ⟨rfl, rfl, rfl, rfl, rfl⟩, ⟨rfl, rfl, rfl, rfl, rfl⟩⟩

/-- Settles O10: a WRITE within the limit absorbs its message bytes, which stay below 64 or pass it once. -/
theorem writeAppendsMessageBytes : Obligations.WriteAppendsMessageBytes := by
  intro s n data active short small room
  have bytes := messageBytes_length n data
  rw [exec_write_of_room s n data active small room]
  split
  case isTrue fits =>
    rw [absorb_eq_of_room s _ (by omega), bytes]
    rfl
  case isFalse spills =>
    rw [absorb_eq_of_spill s _ short (by omega) (by omega), bytes]
    rfl

/-- Settles O14: SUM finalizes the live state, over one padding block or two. -/
theorem sumAnswersDigestOfState : Obligations.SumAnswersDigestOfState := by
  intro s active short limit
  rw [exec_sum_of_limit s active limit]
  split
  case isTrue fits =>
    rw [finalize_of_le _ _ _ _ fits]
    rfl
  case isFalse spills =>
    rw [finalize_of_gt _ _ _ _ (by omega) (by omega)]
    rfl

/-- Settles O17: WRITE 0 absorbs no byte, and a query's answer is fixed by the block, which it leaves. -/
theorem identityCommands : Obligations.IdentityCommands := by
  refine ⟨?_, ?_⟩
  · intro s data active limit
    exact exec_write_of_room s 0 data active (by decide) limit
  · intro s i query active limit
    obtain ⟨answer, answers⟩ := exec_query_answer i s query active limit
    exact ⟨answer, answers s.responses, answers (s.responses ++ [answer])⟩

/-- Settles O19: both ways absorb `m1 ++ m2`, so SUM finalizes the same H, BUF and LEN. -/
theorem incrementalWritesEquivalent : Obligations.IncrementalWritesEquivalent := by
  intro s m1 m2 active room
  obtain ⟨t, split, sameT⟩ := runCommands_writesOf_append m1 m2 s active room
  obtain ⟨u, whole, sameU⟩ := runCommands_writesOf_sameBlock (m1 ++ m2) s active room
  have active' : (s.absorb (m1 ++ m2)).constructed = true := by simpa using active
  have limit : (s.absorb (m1 ++ m2)).len.toNat ≤ 2 ^ 61 - 1 := by rwa [absorb_len_toNat s _ room]
  have ⟨_, _, hT, bufT, lenT⟩ := sameT
  have ⟨_, _, hU, bufU, lenU⟩ := sameU
  have sumT := exec_sum_of_sameBlock (sameT.trans (sameBlock_inputs t [])) active' limit
  have sumU := exec_sum_of_sameBlock (sameU.trans (sameBlock_inputs u [])) active' limit
  have splitLegal : ∀ i ∈ writesOf m1 ++ writesOf m2, i.wellFormed = true :=
    List.forall_mem_append.mpr ⟨writesOf_wellFormed m1, writesOf_wellFormed m2⟩
  exact ⟨_, _, issue_of_runCommands splitLegal split, issue_of_runCommands (writesOf_wellFormed _) whole,
    hT.symm.trans hU, bufT.symm.trans bufU, lenT.symm.trans lenU, _, _, _, sumT, rfl, sumU, rfl⟩

/-- Settles O20: the commands are HASH of `m1`, after which the block still holds `m1`, and then WRITES and SUM. -/
theorem midStreamSumIsNonDestructive : Obligations.MidStreamSumIsNonDestructive := by
  intro s v m1 m2 limit
  rw [List.length_append] at limit
  obtain ⟨t, hashed, held, rfl, responses⟩ := runCommands_hashOf s v m1 (by omega)
  obtain ⟨u, run, _, _, responses'⟩ := runCommands_writesOf_sum held m2 limit
  have commands : [.init t.variant] ++ writesOf m1 ++ [.sum] ++ writesOf m2 ++ [.sum] =
      hashOf t.variant m1 ++ (writesOf m2 ++ [.sum]) := by simp [hashOf]
  rw [commands]
  refine ⟨withInputs [] u, issue_of_runCommands ?_ ((runCommands_append hashed).trans run), ?_⟩
  · exact List.forall_mem_append.mpr ⟨hashOf_wellFormed t.variant m1, writesOf_sum_wellFormed m2⟩
  · exact responses'.trans (by rw [responses])

/-- Settles O21: after RESET the block is as after INIT, so WRITES and SUM end alike: they hold `x` and answer its
digest. -/
theorem resetDiscardsTheMessage : Obligations.ResetDiscardsTheMessage := by
  intro s v x limit
  obtain ⟨t0, erased, empty, variant0⟩ := runCommands_init_writesOf_reset s v x limit
  obtain ⟨t, run, heldT, variantT, responsesT⟩ := runCommands_writesOf_sum empty x (by simpa using limit)
  obtain ⟨u, hashed, heldU, variantU, responsesU⟩ := runCommands_hashOf s v x limit
  have lastT : t.responses.getLast? = some (okWith (messageDigest v x)) := by
    rw [responsesT, variant0, List.getLast?_concat, List.nil_append]
  have lastU : u.responses.getLast? = some (okWith (messageDigest v x)) := by
    rw [responsesU, List.getLast?_concat]
  have same : SameBlock t u := sameBlock_of_holds heldT heldU ((variantT.trans variant0).trans variantU.symm)
  have again := issue_of_runCommands
    (List.forall_mem_append.mpr ⟨init_writesOf_reset_wellFormed v x, writesOf_sum_wellFormed x⟩)
    ((runCommands_append erased).trans run)
  rw [← List.append_assoc] at again
  exact ⟨_, _, again, issue_of_runCommands (hashOf_wellFormed v x) hashed, same,
    lastT.trans lastU.symm, lastU⟩

/-- Settles O1: the step takes the request off and runs what it decodes to. -/
theorem stepExecutesDecodedRequest : Obligations.StepExecutesDecodedRequest := by
  intro s r rest i request good
  rw [step_of_request s r rest request, execRequest_of_legal r _ i good]

/-- Settles O8: INIT assigns every element of the block. -/
theorem initConstructsFreshEngine : Obligations.InitConstructsFreshEngine := by
  intro v s
  refine ⟨rfl, ?_⟩
  intro d rest request
  exact step_of_word (.init v) request rfl (by cases v <;> rfl)

/-- Settles O11: the two branches of AbsorbByte, and the number of bytes modulo 64. -/
theorem absorbByteCompressesAtSixtyFour : Obligations.AbsorbByteCompressesAtSixtyFour := by
  intro s d
  refine ⟨absorbByte_of_full s d, absorbByte_of_room s d, ?_⟩
  intro short
  rw [absorbByte_buf_length s d (by omega)]
  omega

/-- Settles O15: the answer is fixed by VARIANT, and an unconstructed block gives none. -/
theorem sizeAnswersDigestSize : Obligations.SizeAnswersDigestSize := by
  refine ⟨exec_size_of_constructed, ?_, ?_⟩
  · intro s idle
    exact exec_of_unconstructed .size s (by simp) idle
  · intro s d rest active request
    exact (step_of_word .size request rfl rfl).trans (exec_size_of_constructed _ active)

/-- Settles O16: the answer is the one block size, and an unconstructed block does not give even that. -/
theorem blocksizeAnswersSixtyFour : Obligations.BlocksizeAnswersSixtyFour := by
  refine ⟨exec_blocksize_of_constructed, ?_, ?_⟩
  · intro s idle
    exact exec_of_unconstructed .blocksize s (by simp) idle
  · intro s d rest active request
    exact (step_of_word .blocksize request rfl rfl).trans (exec_blocksize_of_constructed _ active)

end Sys2Proof.Proofs
end

section

/-! Exceptions (60_exceptions.md rules R240 to R251): which requests are ILLEGAL, which steps stop, and that DATA, H and
BUF decide neither; and the idle block. -/

namespace Sys2Proof.Machine

open Sys2Proof.Safety

/-! ## The length limit (rule R243) -/

/-- A WRITE that would pass the limit faults before its first byte (rule R243). -/
theorem exec_write_of_overflow (s : State) (n : BitVec 8) (data : Word) (active : s.constructed = true)
    (small : n.toNat ≤ 4) (past : 2 ^ 61 - 1 < s.len.toNat + n.toNat) :
    exec (.write n data) s = .fault .lengthLimit := by
  rw [exec_write_of_small s n data small, requireConstructed_of_constructed s _ active,
    if_neg (by rw [hasRoom_iff]; omega)]

/-- A SUM faults in the states past the limit, which no run reaches (notes/assumptions/4.md). -/
theorem exec_sum_of_overflow (s : State) (active : s.constructed = true) (past : 2 ^ 61 - 1 < s.len.toNat) :
    exec .sum s = .fault .lengthLimit :=
  (requireConstructed_of_constructed s _ active).trans (if_neg (by rw [hasRoom_iff]; omega))

/-- The command asks a block with `len` bytes counted for more than the length limit allows. -/
def PastLimit (len : Word64) : Instr → Prop
  | .write n _ => n.toNat ≤ 4 ∧ 2 ^ 61 - 1 < len.toNat + n.toNat
  | .sum => 2 ^ 61 - 1 < len.toNat
  | .init _ => False
  | .reset => False
  | .size => False
  | .blocksize => False

/-- The data word of a WRITE has no part in the length test (rules R243, R251). -/
theorem pastLimit_withData (len : Word64) (i : Instr) (data : Word) :
    PastLimit len (i.withData data) ↔ PastLimit len i := by
  cases i <;> exact Iff.rfl

/-- The faults of a command: CONSTRUCTED, LEN and the command decide, and nothing else (rules R240, R251). -/
theorem exec_eq_fault_iff (i : Instr) (s : State) (f : Fault) :
    exec i s = .fault f ↔ f = .lengthLimit ∧ s.constructed = true ∧ PastLimit s.len i := by
  constructor
  · intro stops
    obtain ⟨rfl, active, ⟨n, data, rfl, past⟩ | ⟨rfl, past⟩⟩ := exec_fault stops
    · exact ⟨rfl, active, past⟩
    · exact ⟨rfl, active, past⟩
  · rintro ⟨rfl, active, past⟩
    cases i with
    | write n data => exact exec_write_of_overflow s n data active past.1 past.2
    | sum => exact exec_sum_of_overflow s active past
    | init | reset | size | blocksize => exact past.elim

/-! ## The steps that stop (rules R240, R244) -/

/-- A step gives a next state, or is the command of a request that decodes. -/
theorem step_next_or_exec (s : State) :
    (∃ t, step s = .next t) ∨
    ∃ (r : Request) (rest : List Input) (i : Instr), s.inputs = .request r :: rest ∧ decode r = .legal i ∧
      step s = exec i ({ s with inputs := rest } : State) := by
  match event : s.inputs with
  | [] => exact .inl ⟨s, step_of_idle s event⟩
  | .hardwareReset during :: rest => exact .inl ⟨_, step_of_hardwareReset s during rest event⟩
  | .request r :: rest =>
    match verdict : decode r with
    | .illegal _ => exact .inl ⟨_, step_of_illegal event verdict⟩
    | .legal i =>
      exact .inr ⟨r, rest, i, rfl, verdict, by rw [step_of_request s r rest event, execRequest_of_legal r _ i verdict]⟩

/-- The inversion lemma of a step that faults. -/
theorem step_fault {s : State} {f : Fault} (stops : step s = .fault f) :
    ∃ (r : Request) (rest : List Input) (i : Instr), s.inputs = .request r :: rest ∧ decode r = .legal i ∧
      exec i ({ s with inputs := rest } : State) = .fault f := by
  obtain ⟨t, next⟩ | ⟨r, rest, i, request, good, runs⟩ := step_next_or_exec s
  · cases next.symm.trans stops
  · exact ⟨r, rest, i, request, good, runs.symm.trans stops⟩

theorem step_ne_refused (s : State) (r : Refusal) : step s ≠ .refused r := by
  intro refused
  obtain ⟨t, next⟩ | ⟨_, _, i, _, _, runs⟩ := step_next_or_exec s
  · cases next.symm.trans refused
  · exact exec_ne_refused i _ r (runs.symm.trans refused)

/-- The faults of a step on a request that decodes. -/
theorem step_eq_fault_iff {s : State} {r : Request} {rest : List Input} {i : Instr} (f : Fault)
    (request : s.inputs = .request r :: rest) (good : decode r = .legal i) :
    step s = .fault f ↔ f = .lengthLimit ∧ s.constructed = true ∧ PastLimit s.len i := by
  rw [step_of_request s r rest request, execRequest_of_legal r _ i good]
  exact exec_eq_fault_iff i _ f

/-- Two steps on one command word fault alike, when CONSTRUCTED and LEN agree (rule R251). -/
theorem step_fault_congr {s s' : State} {cmd d d' : Word} {rest rest' : List Input}
    (constructed : s.constructed = s'.constructed) (len : s.len = s'.len)
    (request : s.inputs = .request ⟨cmd, d⟩ :: rest) (request' : s'.inputs = .request ⟨cmd, d'⟩ :: rest') (f : Fault) :
    step s = .fault f ↔ step s' = .fault f := by
  have other := decode_withData cmd d d'
  cases verdict : decode ⟨cmd, d⟩ with
  | illegal why =>
    rw [verdict] at other
    rw [step_of_illegal request verdict, step_of_illegal request' other]
    exact ⟨nofun, nofun⟩
  | legal i =>
    rw [verdict] at other
    rw [step_eq_fault_iff f request verdict, step_eq_fault_iff f request' other, pastLimit_withData, constructed, len]

/-! ## The ILLEGAL requests (rules R241, R242) -/

/-- Any of the four conditions of rule R241 makes the step answer ILLEGAL and nothing else (rule R242). -/
theorem step_of_illegalRequest {s : State} {cmd data : Word} {rest : List Input}
    (request : s.inputs = .request ⟨cmd, data⟩ :: rest) (illegal : IllegalRequest s cmd) :
    step s = .next ({ s with inputs := rest } : State).answerIllegal := by
  cases verdict : decode ⟨cmd, data⟩ with
  | illegal why => exact step_of_illegal request verdict
  | legal i =>
    obtain ⟨idle, notInit⟩ := (illegalRequest_iff_of_decode s verdict).mp illegal
    rw [step_of_request s _ rest request, execRequest_of_legal _ _ i verdict]
    exact exec_of_unconstructed i _ notInit idle

/-- A step on any other request answers OK, when it answers. -/
theorem step_answer_of_legalRequest {s t : State} {cmd data : Word} {rest : List Input}
    (request : s.inputs = .request ⟨cmd, data⟩ :: rest) (legal : ¬ IllegalRequest s cmd) (next : step s = .next t) :
    ∃ ws, t.responses = s.responses ++ [okWith ws] := by
  obtain ⟨_, answer, answered, _, _, ok⟩ := Proofs.oneResponsePerRequest s t _ rest request next
  obtain ⟨status, _⟩ := ok legal
  exact ⟨answer.payload, by rw [answered, okWith, ← status]⟩

/-- Of the state only CONSTRUCTED decides (rule R251). -/
theorem illegalRequest_congr {s s' : State} (constructed : s.constructed = s'.constructed) (cmd : Word) :
    IllegalRequest s cmd ↔ IllegalRequest s' cmd := by
  rw [IllegalRequest, IllegalRequest, constructed]

/-- The status of the last response. -/
def lastStatus (s : State) : Option Status := s.responses.getLast?.map Response.status

theorem lastStatus_of_concat {s : State} {before : List Response} {answer : Response}
    (responses : s.responses = before ++ [answer]) : lastStatus s = some answer.status := by
  rw [lastStatus, responses, List.getLast?_concat, Option.map_some]

theorem lastStatus_of_illegalRequest {s t : State} {cmd data : Word} {rest : List Input}
    (request : s.inputs = .request ⟨cmd, data⟩ :: rest) (next : step s = .next t) (illegal : IllegalRequest s cmd) :
    lastStatus t = some .illegal := by
  rw [step_of_illegalRequest request illegal] at next
  cases next
  exact lastStatus_of_concat (answerIllegal_responses _)

theorem lastStatus_of_legalRequest {s t : State} {cmd data : Word} {rest : List Input}
    (request : s.inputs = .request ⟨cmd, data⟩ :: rest) (next : step s = .next t) (legal : ¬ IllegalRequest s cmd) :
    lastStatus t = some .ok := by
  obtain ⟨ws, answered⟩ := step_answer_of_legalRequest request legal next
  exact lastStatus_of_concat answered

/-- The response says ILLEGAL exactly to the requests of rule R241. -/
theorem lastStatus_eq_illegal_iff {s t : State} {cmd data : Word} {rest : List Input}
    (request : s.inputs = .request ⟨cmd, data⟩ :: rest) (next : step s = .next t) :
    lastStatus t = some .illegal ↔ IllegalRequest s cmd := by
  refine ⟨?_, lastStatus_of_illegalRequest request next⟩
  intro status
  by_contra legal
  cases (lastStatus_of_legalRequest request next legal).symm.trans status

/-! ## The idle block (rule R250) -/

/-- With no event to come every step of a run is idle. -/
theorem runSteps_of_idle (k : Nat) (s : State) (idle : s.inputs = []) : runSteps k s = .next s := by
  induction k with
  | zero => rfl
  | succ k ih => exact (runSteps_succ_of_step k (step_of_idle s idle)).trans ih

end Sys2Proof.Machine

/-! ## The obligations -/

namespace Sys2Proof.Proofs

open Sys2Proof.Machine Sys2Proof.Safety

/-- Settles O7: the first three conditions are the words that do not decode, the fourth is `requireConstructed`'s; every
other command answers OK. -/
theorem illegalRequestOnlyAnswers : Obligations.IllegalRequestOnlyAnswers := by
  intro s rest cmd data request
  exact ⟨step_of_illegalRequest request, fun legal t => step_answer_of_legalRequest request legal⟩

/-- Settles O13: a fault is a WRITE's or a SUM's, and BufferInv keeps LEN where a SUM does not fault. -/
theorem onlyTheLengthLimitStops : Obligations.OnlyTheLengthLimitStops := by
  refine ⟨?_, step_ne_refused⟩
  intro s f inv stops
  obtain ⟨⟨cmd, data⟩, rest, i, request, good, faults⟩ := step_fault stops
  obtain ⟨rfl, active, ⟨n, d, rfl, small, past⟩ | ⟨_, past⟩⟩ := exec_fault faults
  · have word : (encode (.write n d)).cmd = cmd := encode_cmd_of_decode good
    subst word
    exact ⟨rfl, active, n, data, rest, request, small, past⟩
  · obtain ⟨_, limit, _⟩ := inv active
    exact absurd past (Nat.not_lt.mpr limit)

/-- Settles O32: what decides a fault and an ILLEGAL answer is CMD, CONSTRUCTED and, for a fault, LEN. -/
theorem dataNeverCausesAbnormalOutcome : Obligations.DataNeverCausesAbnormalOutcome := by
  intro s s' cmd d d' rest rest' constructed request request'
  have same := illegalRequest_congr constructed cmd
  refine ⟨fun len f => step_fault_congr constructed len request request' f, ?_, ?_⟩
  · intro t t' next next'
    by_cases illegal : IllegalRequest s cmd
    · have status := lastStatus_of_illegalRequest request next illegal
      exact status.trans (lastStatus_of_illegalRequest request' next' (same.mp illegal)).symm
    · have status := lastStatus_of_legalRequest request next illegal
      exact status.trans (lastStatus_of_legalRequest request' next' (mt same.mpr illegal)).symm
  · intro t next status
    have illegal' := same.mp ((lastStatus_eq_illegal_iff request next).mp status)
    have next' := step_of_illegalRequest request' illegal'
    exact ⟨_, next', lastStatus_of_illegalRequest request' next' illegal'⟩

/-- Settles O12: the length test comes before the first byte, and the word 0x03 || n || 0x0000 is WRITE's. -/
theorem writeBeyondLimitFaults : Obligations.WriteBeyondLimitFaults := by
  intro s n data active small past
  refine ⟨exec_write_of_overflow s n data active small past, ?_⟩
  intro d rest request
  rw [step_of_word (.write n d) request ((wellFormed_write_iff n d).mpr small) rfl]
  exact exec_write_of_overflow _ n d active small past

/-- Settles O37: every step of a block with no event to come is idle. -/
theorem idleBlockHoldsItsState : Obligations.IdleBlockHoldsItsState :=
  fun s idle => ⟨step_of_idle s idle, fun k => runSteps_of_idle k s idle⟩

end Sys2Proof.Proofs
end

section
/-! Power-on, hardware reset, the block before its first INIT, and the compressions of a command
(70_reset_and_hazards.md rules R260 to R262 and R265). -/

namespace Sys2Proof.Machine

open Sys2Proof.Safety

/-! ## An unconstructed block (rules R26, R260, R262) -/

/-- MessageInv, like BufferInv, speaks of a constructed block only. -/
theorem messageInv_of_unconstructed {s : State} (idle : s.constructed = false) : MessageInv s := by
  intro active
  simp [idle] at active

theorem bufferInv_of_unconstructed {s : State} (idle : s.constructed = false) : BufferInv s := by
  intro active
  simp [idle] at active

/-- Any request but a legal INIT is answered ILLEGAL: it does not decode, or condition 4 of rule R241 holds. -/
theorem step_of_unconstructed {s : State} {r : Request} {rest : List Input} (idle : s.constructed = false)
    (request : s.inputs = .request r :: rest) (notInit : ∀ v, decode r ≠ .legal (.init v)) :
    step s = .next ({ s with inputs := rest } : State).answerIllegal := by
  cases verdict : decode r with
  | illegal why => exact step_of_illegal request verdict
  | legal i =>
    rw [step_of_request s r rest request, execRequest_of_legal r _ i verdict]
    exact exec_of_unconstructed i _ (fun v init => notInit v (by rw [verdict, init])) idle

/-- The answers of requests without a legal INIT add up, one a request, and CONSTRUCTED stays 0 (rule R262). -/
theorem runSteps_of_unconstructed (rs : List Request) (s : State) (idle : s.constructed = false)
    (notInit : ∀ r ∈ rs, ∀ v, decode r ≠ .legal (.init v)) :
    runSteps rs.length ({ s with inputs := rs.map Input.request } : State) =
      .next ({ s with inputs := [], responses := s.responses ++ List.replicate rs.length illegalEmpty } : State) := by
  induction rs generalizing s with
  | nil => simp [runSteps]
  | cons r rs ih =>
    obtain ⟨first, later⟩ := List.forall_mem_cons.mp notInit
    have answered : step ({ s with inputs := (r :: rs).map Input.request } : State) =
        .next ({ s.answerIllegal with inputs := rs.map Input.request } : State) :=
      step_of_unconstructed idle rfl first
    rw [List.length_cons, runSteps_succ_of_step _ answered, ih s.answerIllegal idle later]
    simp [List.replicate_succ, illegalEmpty, State.answerIllegal, State.respond]

/-! ## The compressions of a command (rule R265) -/

theorem compressions_write {s : State} {n : BitVec 8} (data : Word) (active : s.constructed = true)
    (small : n.toNat ≤ 4) : compressions (.write n data) s = if 64 ≤ s.buf.length + n.toNat then 1 else 0 := by
  simp [compressions, active, small]

theorem compressions_sum {s : State} (active : s.constructed = true) :
    compressions .sum s = if s.buf.length ≤ 55 then 1 else 2 := if_pos active

/-- Fewer than two blocks of bytes hold a whole block from the 64th byte on. -/
theorem fullBlocks_length_of_lt (p : List Byte) (few : p.length < 128) :
    (fullBlocks p).length = if 64 ≤ p.length then 1 else 0 := by
  rw [fullBlocks_length]
  split <;> omega

theorem fullBlocks_pad_length (tail : List Byte) (total : Nat) (short : tail.length ≤ 63) :
    (fullBlocks (pad tail total)).length = if tail.length ≤ 55 then 1 else 2 := by
  rw [fullBlocks_length, pad_length_eq_ite tail total short]
  split <;> rfl

end Sys2Proof.Machine

/-! ## The obligations -/

namespace Sys2Proof.Proofs

open Sys2Proof.Machine Sys2Proof.Safety

/-- Settles O35: the first request is answered ILLEGAL and leaves an unconstructed block, so the rest are too. -/
theorem onlyInitWakesTheBlock : Obligations.OnlyInitWakesTheBlock := runSteps_of_unconstructed

/-- Settles O39: a buffer of at most 63 bytes and a WRITE of at most 4 make fewer than two blocks; a padded tail is one
block up to 55 bytes and two from 56 on. -/
theorem compressionsPerCommand : Obligations.CompressionsPerCommand := by
  intro s active inv
  obtain ⟨short, _, _⟩ := inv active
  refine ⟨?_, ?_, fun v => if_pos active, if_pos active, if_pos active, if_pos active⟩
  · intro n data small
    have filled : (s.buf ++ messageBytes n data).length = s.buf.length + n.toNat := by simp
    rw [compressions_write data active small, fullBlocks_length_of_lt _ (by omega), filled]
  · rw [compressions_sum active, fullBlocks_pad_length _ _ (by omega)]

/-- Settles O27: power-on is an unconstructed block. -/
theorem powerOnMeetsInvariants : Obligations.PowerOnMeetsInvariants :=
  ⟨reset_constructed, reset_responses, reset_inputs, bufferInv_of_unconstructed reset_constructed,
    messageInv_of_unconstructed reset_constructed⟩

/-- Settles O34: what `step_of_hardwareReset` says, written out on every element. -/
theorem hardwareResetReturnsToPowerOn : Obligations.HardwareResetReturnsToPowerOn := step_of_hardwareReset

end Sys2Proof.Proofs
end
